-- ==== Sys2Proof/Word.lean ====
section
/-! DEFINITION. The bit-vector types of the block's packets (spec/30_encoding.md). -/

namespace Sys2Proof

/-- One word of a command or response packet, `w[31:0]` (R7 (b), R70). -/
abbrev Word := BitVec 32

/-- One operand field of a packet: every operand is 16 bits (R84). -/
abbrev Half := BitVec 16

/-- A 4-bit field: `op`, `code`, `FCODE`, `FOP` (R71, R78, R27). -/
abbrev Nibble := BitVec 4

end Sys2Proof
end

