-- ==== Sys2Proof/Syntax.lean ====
section
/-! DEFINITION. What travels to and from the block: views, field descriptors, ports, the nine commands, error causes,
responses, length kinds, and the written (assembler) forms. -/

namespace Sys2Proof

/-- A view `(vbase, vlen)`: the hardware form of the source's BitBuffer value (R47). It names store bits
`vbase .. vbase+vlen-1`, re-indexed from 0. -/
structure View where
  vbase : Half
  vlen : Half
deriving DecidableEq, Repr, Inhabited

/-- A field descriptor (R60): "pure data", always relative to a structure's base offset. Which values are valid is
`FieldDesc.valid` (R92, R93). -/
inductive FieldDesc where
  /-- a contiguous `(startBit, lengthBits)` pair -/
  | contig (startBit lengthBits : Nat)
  /-- an explicit ascending list of bit indices -/
  | list (ds : List Nat)
deriving DecidableEq, Repr, Inhabited

/-- The two ports (R70). The port a packet arrives on is its privilege level (R172): `H` the host, `R` requesters. -/
inductive Port where
  | H
  | R
deriving DecidableEq, Repr, Inhabited

/-- The error causes (R160). -/
inductive ErrCode where
  | badcmd
  | priv
  | nobuf
  | busy
  | cap
  | badview
  | baddesc
  | oob
deriving DecidableEq, Repr, Inhabited

/-- The nine commands, one constructor per row of spec/opcode_table.json (R75, R76). Operands are the packet's own
16-bit fields (R84); `getintx` and `getlongx` carry the list whose length is the field `n`, `load` the data words. -/
inductive Instr where
  /-- GET: read one bit (R97) -/
  | get (v : View) (bitIndex : Half)
  /-- GETINT: a contiguous field of 1 to 32 bits (R98) -/
  | getint (v : View) (baseOffset startBit lengthBits : Half)
  /-- GETLONG: a contiguous field of 1 to 64 bits (R99) -/
  | getlong (v : View) (baseOffset startBit lengthBits : Half)
  /-- GETINTX: 1 to 32 listed bits (R100) -/
  | getintx (v : View) (baseOffset : Half) (ds : List Half)
  /-- GETLONGX: 1 to 64 listed bits (R101) -/
  | getlongx (v : View) (baseOffset : Half) (ds : List Half)
  /-- SUBBUF: a view of bits `startBit .. endBit-1` of a view (R121) -/
  | subbuf (v : View) (startBit endBit : Half)
  /-- GETLEN: the length in octets of the structure at a base offset (R135) -/
  | getlen (v : View) (baseOffset : Half)
  /-- LOAD: create the buffer (R151); the confidences come on a sideband, not in the packet -/
  | load (nbits : Half) (data : List Word)
  /-- DISCARD: discard the buffer (R153) -/
  | discard
deriving DecidableEq, Repr, Inhabited

/-- A response packet: three words (R78). -/
structure Response where
  w0 : Word
  w1 : Word
  w2 : Word
deriving DecidableEq, Repr, Inhabited

/-- How the length of a structure is found (R130): one entry of `LENTAB`. -/
inductive LenKind where
  /-- the block knows no length for this opcode -/
  | unknown
  /-- "fixed-length structures have a protocol-fixed length", in octets -/
  | fixed (length : Nat)
  /-- "Variable-length structures carry a length field" -/
  | lenField (fd : FieldDesc)
  /-- a count field that selects one of four lengths in octets -/
  | countTable (fd : FieldDesc) (t1 t2 t3 t4 : Nat)
deriving DecidableEq, Repr, Inhabited

/-! ## Written forms (R81, R82) -/

/-- A view as written: a pair of numbers, or `ROOT`, "the view returned by the last successful LOAD" (R82). -/
inductive WrittenView where
  | pair (vbase vlen : Nat)
  | root
deriving DecidableEq, Repr

/-- The written forms of the commands (R81) and the pseudo-instructions (R82). Numbers are naturals as written. -/
inductive Written where
  | get (v : WrittenView) (i : Nat)
  | getint (v : WrittenView) (base start len : Nat)
  | getlong (v : WrittenView) (base start len : Nat)
  | getintx (v : WrittenView) (base : Nat) (ds : List Nat)
  | getlongx (v : WrittenView) (base : Nat) (ds : List Nat)
  | subbuf (v : WrittenView) (s e : Nat)
  | getlen (v : WrittenView) (base : Nat)
  | load (n : Nat) (octets : List (BitVec 8))
  | discard
  | getopcode (v : WrittenView) (base : Nat)
  | getvendor (v : WrittenView) (base : Nat)
  | getoctet (v : WrittenView) (base k : Nat)
deriving DecidableEq, Repr

end Sys2Proof
end

