-- ==== Sys2Proof/Machine/Layout.lean ====
section
/-! DEFINITION. The numbers of the packet format: bit fields of words, operation codes, error codes, kind codes, word
counts (spec/30_encoding.md R71 to R76, spec/60_exceptions.md R160), and which descriptors are valid (R92, R93, R131). -/

namespace Sys2Proof

/-- The operation code of a command (R75). -/
def Instr.op : Instr → Nibble
  | .get _ _ => 0x1#4
  | .getint _ _ _ _ => 0x2#4
  | .getlong _ _ _ _ => 0x3#4
  | .getintx _ _ _ => 0x4#4
  | .getlongx _ _ _ => 0x5#4
  | .subbuf _ _ _ => 0x6#4
  | .getlen _ _ => 0x7#4
  | .load _ _ => 0x8#4
  | .discard => 0x9#4

/-- The error codes (R160). Code 0 is success; codes 9 to 15 are never produced. -/
def ErrCode.code : ErrCode → Nibble
  | .badcmd => 1#4
  | .priv => 2#4
  | .nobuf => 3#4
  | .busy => 4#4
  | .cap => 5#4
  | .badview => 6#4
  | .baddesc => 7#4
  | .oob => 8#4

/-- The kind codes of `LENTAB` entries (R130). -/
def LenKind.code : LenKind → BitVec 2
  | .unknown => 0#2
  | .fixed _ => 1#2
  | .lenField _ => 2#2
  | .countTable _ _ _ _ _ => 3#2

/-! ## Fields of a word -/

/-- `w[31:28]`, the field `op` of a header (R71) and of a response (R78). -/
def opOf (w : Word) : Nibble := w.extractLsb' 28 4

/-- `w[27:24]`, the field `rsv` of a header (R71), `code` of a response (R78). -/
def rsvOf (w : Word) : Nibble := w.extractLsb' 24 4

/-- `w[23:16]`, the field `n` of a header (R71). -/
def countOf (w : Word) : BitVec 8 := w.extractLsb' 16 8

/-- `w[31:16]`: `vbase`, `b`, `d_2k` (R72 to R74). -/
def hiHalf (w : Word) : Half := w.extractLsb' 16 16

/-- `w[15:0]`: `a`, `vlen`, `c`, `d_2k+1` (R71 to R74). -/
def loHalf (w : Word) : Half := w.extractLsb' 0 16

/-- The header word `op`, `rsv = 0`, `n`, `a` (R71). -/
def headerWord (op : Nibble) (n : BitVec 8) (a : Half) : Word := op ++ 0#4 ++ n ++ a

/-- Two halves in one word, the first in bits 31:16 (R72 to R74). -/
def pairWord (hi lo : Half) : Word := hi ++ lo

/-- The view word (R72), also the layout of a SUBBUF or LOAD result (R79). -/
def viewWord (v : View) : Word := pairWord v.vbase v.vlen

/-- The view a word carries (R72). -/
def viewOf (w : Word) : View := ⟨hiHalf w, loHalf w⟩

/-! ## Word counts -/

/-- The number of list words that carry `n` indices, `ceil(n/2)` (R74). -/
def listWordCount (n : Nat) : Nat := (n + 1) / 2

/-- The number of data words that carry `n` bits, `ceil(n/32)` (R74). -/
def dataWordCount (n : Nat) : Nat := (n + 31) / 32

/-- The packet length, "a function of word 0 alone" (R76): 3 words, plus the list words when `op` is 4 or 5, plus the
data words when `op` is 8; 3 for a reserved `op`. -/
def expectedWords (w0 : Word) : Nat :=
  if opOf w0 = 0x4#4 ∨ opOf w0 = 0x5#4 then 3 + listWordCount (countOf w0).toNat
  else if opOf w0 = 0x8#4 then 3 + dataWordCount (loHalf w0).toNat
  else 3

/-! ## Valid descriptors and table entries -/

/-- Each entry is greater than the one before it: "ascending" read as strictly ascending (R93, D12). -/
def strictlyAscending : List Nat → Bool
  | a :: b :: rest => decide (a < b) && strictlyAscending (b :: rest)
  | _ => true

/-- A descriptor of a `LENTAB` entry is valid (R131): by R92 or R93 with the limit `maxlen`, and every index of it is
at most 65535. -/
def FieldDesc.valid (maxlen : Nat) : FieldDesc → Bool
  | .contig s l => decide (1 ≤ l ∧ l ≤ maxlen ∧ s + l ≤ 65536)
  | .list ds => decide (1 ≤ ds.length ∧ ds.length ≤ maxlen) && strictlyAscending ds && ds.all (fun d => decide (d ≤ 65535))

/-- The structural conditions on one entry of `LENTAB` (R131). -/
def LenKind.valid : LenKind → Bool
  | .unknown => true
  | .fixed l => decide (l ≤ 65535)
  | .lenField fd => fd.valid 16
  | .countTable fd t1 t2 t3 t4 =>
    fd.valid 16 && decide (t1 ≤ 65535 ∧ t2 ≤ 65535 ∧ t3 ≤ 65535 ∧ t4 ≤ 65535)

/-! ## Responses -/

/-- The echoed `op` of a response (R78). -/
def Response.op (r : Response) : Nibble := opOf r.w0

/-- The `code` of a response: 0 for success (R78). -/
def Response.code (r : Response) : Nibble := rsvOf r.w0

/-- Word 0 of a response: `op`, `code`, 24 zero bits (R78). -/
def responseHead (op code : Nibble) : Word := op ++ code ++ 0#24

end Sys2Proof
end

