-- ==== Sys2Proof/WellFormed.lean ====
section
/-! DEFINITION. Which values of `Instr` a packet can carry (spec/30_encoding.md R74, R76, R84). -/

namespace Sys2Proof

/-- An instruction that a packet can carry: a list's length fits the 8-bit field `n` (R71, R84), and a LOAD brings
exactly `ceil(a/32)` data words (R74, R76). A count outside 1..32 or 1..64 is well-formed: it is framed by `n` as given
and the operation raises BADDESC (R77). -/
def Instr.wf : Instr → Bool
  | .get _ _ => true
  | .getint _ _ _ _ => true
  | .getlong _ _ _ _ => true
  | .getintx _ _ ds => decide (ds.length ≤ 255)
  | .getlongx _ _ ds => decide (ds.length ≤ 255)
  | .subbuf _ _ _ => true
  | .getlen _ _ => true
  | .load n data => decide (data.length = dataWordCount n.toNat)
  | .discard => true

end Sys2Proof
end

