-- ==== Sys2Proof/Decode.lean ====
section
/-! DEFINITION. From a packet to a command, or to the reason it is malformed (spec/30_encoding.md R77, R83), and back:
the encoder (R71 to R76). -/

namespace Sys2Proof

/-- Why a packet is malformed (R77). Every one of these raises BADCMD; the names only say which condition failed. -/
inductive Malformed where
  /-- no word 0 -/
  | empty
  /-- fewer than 3 words -/
  | tooShort
  /-- the word count differs from the one R76 gives for word 0 -/
  | wordCount
  /-- `op` is 0x0 or 0xA to 0xF -/
  | reservedOp
  /-- `rsv` is not 0 -/
  | reservedField
  /-- a field that R76 shows as 0 is not 0 -/
  | mustBeZero
  /-- for odd `n` the unused half of the last list word is not 0 -/
  | listPad
deriving DecidableEq, Repr

/-! ## List words (R74) -/

/-- The halves of the list words in order: `d_2k` in bits 31:16, `d_2k+1` in bits 15:0 (R74). -/
def unpackHalves (ws : List Word) : List Half := ws.flatMap fun w => [hiHalf w, loHalf w]

/-- The list words of a list of indices; the unused half of the last one is 0 (R74). -/
def packHalves : List Half → List Word
  | [] => []
  | [d] => [pairWord d 0]
  | d0 :: d1 :: rest => pairWord d0 d1 :: packHalves rest

/-- The list a format X packet carries in its extension words, refused when the unused half is not 0 (R74, R77). -/
def listOperand (n : Nat) (ext : List Word) : Except Malformed (List Half) :=
  if ((unpackHalves ext).drop n).all (fun d => decide (d = 0)) then .ok ((unpackHalves ext).take n) else .error .listPad

/-! ## The decoder -/

/-- Steps 4 and 6 of R83 for a packet of the right length: check `op`, `rsv` and the must-be-zero fields of R76, and hand
out the operands. -/
def decodeFields (w0 w1 w2 : Word) (ext : List Word) : Except Malformed Instr :=
  if rsvOf w0 ≠ 0#4 then .error .reservedField
  else if opOf w0 = 0x1#4 then
    if countOf w0 = 0#8 ∧ w2 = 0#32 then .ok (.get (viewOf w1) (loHalf w0)) else .error .mustBeZero
  else if opOf w0 = 0x2#4 then
    if countOf w0 = 0#8 then .ok (.getint (viewOf w1) (loHalf w0) (hiHalf w2) (loHalf w2)) else .error .mustBeZero
  else if opOf w0 = 0x3#4 then
    if countOf w0 = 0#8 then .ok (.getlong (viewOf w1) (loHalf w0) (hiHalf w2) (loHalf w2)) else .error .mustBeZero
  else if opOf w0 = 0x4#4 then
    if w2 = 0#32 then (listOperand (countOf w0).toNat ext).map (.getintx (viewOf w1) (loHalf w0)) else .error .mustBeZero
  else if opOf w0 = 0x5#4 then
    if w2 = 0#32 then (listOperand (countOf w0).toNat ext).map (.getlongx (viewOf w1) (loHalf w0)) else .error .mustBeZero
  else if opOf w0 = 0x6#4 then
    if countOf w0 = 0#8 ∧ loHalf w0 = 0#16 then .ok (.subbuf (viewOf w1) (hiHalf w2) (loHalf w2)) else .error .mustBeZero
  else if opOf w0 = 0x7#4 then
    if countOf w0 = 0#8 ∧ w2 = 0#32 then .ok (.getlen (viewOf w1) (loHalf w0)) else .error .mustBeZero
  else if opOf w0 = 0x8#4 then
    if countOf w0 = 0#8 ∧ w1 = 0#32 ∧ w2 = 0#32 then .ok (.load (loHalf w0) ext) else .error .mustBeZero
  else if opOf w0 = 0x9#4 then
    if countOf w0 = 0#8 ∧ loHalf w0 = 0#16 ∧ w1 = 0#32 ∧ w2 = 0#32 then .ok .discard else .error .mustBeZero
  else .error .reservedOp

/-- The decoder (R83 steps 1 to 4), total on every list of words. -/
def decode : List Word → Except Malformed Instr
  | [] => .error .empty
  | w0 :: w1 :: w2 :: ext =>
    if ext.length + 3 = expectedWords w0 then decodeFields w0 w1 w2 ext else .error .wordCount
  | _ => .error .tooShort

/-- The `op` a response echoes: that of word 0, and 0 for an empty packet (R77, R78). -/
def opEcho : List Word → Nibble
  | [] => 0
  | w0 :: _ => opOf w0

/-! ## The encoder -/

/-- The packet of an instruction (R71 to R76). -/
def encode : Instr → List Word
  | .get v i => [headerWord 0x1#4 0 i, viewWord v, 0]
  | .getint v b s l => [headerWord 0x2#4 0 b, viewWord v, pairWord s l]
  | .getlong v b s l => [headerWord 0x3#4 0 b, viewWord v, pairWord s l]
  | .getintx v b ds => headerWord 0x4#4 (BitVec.ofNat 8 ds.length) b :: viewWord v :: 0 :: packHalves ds
  | .getlongx v b ds => headerWord 0x5#4 (BitVec.ofNat 8 ds.length) b :: viewWord v :: 0 :: packHalves ds
  | .subbuf v s e => [headerWord 0x6#4 0 0, viewWord v, pairWord s e]
  | .getlen v b => [headerWord 0x7#4 0 b, viewWord v, 0]
  | .load n data => headerWord 0x8#4 0 n :: 0 :: 0 :: data
  | .discard => [headerWord 0x9#4 0 0, 0, 0]

/-! ## The opcode table's numbering -/

/-- The packet whose bits are `w`, bit 0 the least significant bit of word 0 and a later word's bits counting on from it,
with every bit from `nbits` on zero; as many words as R76 gives for its word 0. -/
def tableWords (nbits w : Nat) : List Word :=
  let bits := w % 2 ^ nbits
  (List.range (expectedWords (BitVec.ofNat 32 bits))).map fun j => BitVec.ofNat 32 (bits / 2 ^ (32 * j))

/-- The instruction the decoder reads from the packet whose bits are `w` in the numbering of spec/opcode_table.json. -/
def decodeTableWord (nbits w : Nat) : Option Instr :=
  match decode (tableWords nbits w) with
  | .ok i => some i
  | .error _ => none

end Sys2Proof
end

