-- ==== Sys2Proof/Config.lean ====
section
/-! DEFINITION. The configuration record `CFG` (spec/00_scope.md R6) and the values the spec leaves open. A constant
without a body is a free value: nothing can be proved about it. -/

namespace Sys2Proof

/-- The conditions a configuration must meet: `CAP_BITS <= 65535` (R6) and the structural conditions of R131 on each of
the 256 entries of `LENTAB`. -/
def Cfg.check (capBits : Nat) (lenTab : Vector LenKind 256) : Bool :=
  decide (capBits ≤ 65535) && lenTab.toList.all LenKind.valid

/-- The configuration record (R6): the open parameters that are plain data. It carries the proof that the conditions of
R131 hold, so a configuration that fails them cannot be built ("a model checks once and refuses the configuration if
they fail"). `IDX_W`, `INT_MAX_LEN` and `LONG_MAX_LEN` are constants of the spec (R6, C7); `DEBUG`, `ConfT` and `OOBVAL`
are `Config.debugStrap`, `ConfT` (with `Config.confBound`) and `Config.oobVal`. -/
structure Cfg where
  /-- `CAP_BITS`, capacity of the bit store in bits (R23) -/
  capBits : Nat := 0
  /-- `LENTAB`, indexed by opcode (R30, R130) -/
  lenTab : Vector LenKind 256 := Vector.replicate 256 .unknown
  /-- R6 and R131 hold -/
  ok : Cfg.check capBits lenTab = true := by decide +kernel
deriving DecidableEq, Repr, Inhabited

/-- Check a configuration once, and refuse it if a condition of R131 fails. -/
def Cfg.make? (capBits : Nat) (lenTab : Vector LenKind 256) : Option Cfg :=
  if h : Cfg.check capBits lenTab = true then some ⟨capBits, lenTab, h⟩ else none

/-- `LENTAB[opc]` (R30). -/
def Cfg.kindOf (c : Cfg) (opc : BitVec 8) : LenKind := c.lenTab[opc.toNat]'opc.isLt

/-- `INT_MAX_LEN`, the longest field `getInt` extracts (R6, R92). -/
def intMaxLen : Nat := 32

/-- `LONG_MAX_LEN`, the longest field `getLong` extracts (R6, R92). -/
def longMaxLen : Nat := 64

namespace Config

/-- How many values `ConfT` has beyond the first, and `none` when there is no bound. It is a constant without a body: the
spec's `ConfT` is OPEN, "any type" (R6, R25), and this one constant stands for every type whose values can be counted.
notes/assumptions/10.md. DESIGN CHOICE. -/
opaque confBound : Option Nat

/-- The configuration the machine after reset has: `CAP_BITS` and `LENTAB`, both OPEN (R6).
notes/assumptions/8.md. DESIGN CHOICE. -/
opaque cfg : Cfg

/-- The level of the `DEBUG` strap at the first reset, OPEN (R6, R28): "a model ... must not fix it".
notes/assumptions/9.md. DESIGN CHOICE. -/
opaque debugStrap : Bool

/-- `OOBVAL(packet, BITS, LEN)`, the "defined-but-meaningless" payload of an errored command (R169): a function of the
packet, the loaded bits and their number, about which the spec says nothing else. notes/assumptions/7.md. DEDUCED. -/
opaque oobVal : List Word → List Bool → Nat → BitVec 64

/-- What an unspecified cell of `BITS` holds (R23, R33, R153; U10 "any value"): a free bit for each life of the store and
each address. No command reads one (R50). notes/assumptions/5.md. DESIGN CHOICE. -/
opaque unspecifiedBit : Nat → Nat → Bool

/-- Which port is served when both offer a packet (R174: "the block may take either"): a free choice for each accepted
packet. notes/assumptions/2.md. DESIGN CHOICE. -/
opaque arbiter : Nat → Port

end Config

/-- One bit's correction confidence, a value of the open type `ConfT` (R6, R25, D24): one of the values that
`Config.confBound` admits, named by a number that means nothing. No command reads one. notes/assumptions/10.md. DESIGN
CHOICE. -/
structure ConfT where
  code : Nat
  ok : Config.confBound.all (fun b => decide (code ≤ b)) = true
deriving DecidableEq, Repr

/-- One transaction as a port delivers it: the packet's words, delivered whole (R70), and the confidence sideband that
a LOAD comes with (R151). -/
structure Offer where
  words : List Word
  confs : List ConfT
deriving DecidableEq, Repr, Inhabited

end Sys2Proof
end

