-- ==== Sys2Proof/Machine/State.lean ====
section
/-! DEFINITION. The state of the block (spec/10_state.md, INVENTORY.md "State"), the reasons a step can stop, and the
state after reset (R33). -/

namespace Sys2Proof.Machine

/-- Cells of a sparse array: `(address, value)` pairs. A cell that is not listed holds no specified value. The canonical
form, strictly rising addresses, is `Cells.wf` (Machine/Ops.lean). -/
abbrev Cells (α : Type) := List (Nat × α)

/-- The bit store `BITS` (R23, R40): the block's one address space, addressed by bit, so a cell is one bit.
notes/assumptions/5.md. -/
abbrev Memory := Cells Bool

/-- Why a step cannot be taken. -/
inductive Fault where
  /-- raised by `step` when `STATUS.HALTED = 1`: "a halted block has no enabled step" (R168), a stuck state that only
  reset leaves. Safe: the spec says the same (notes/assumptions/12.md). -/
  | halted
deriving DecidableEq, Repr

/-- Why the model gives no meaning. -/
inductive Refusal where
  /-- an instruction without a meaning yet; raised by no arm of this model. Safe: nothing follows from a refusal. -/
  | notModelled (mnemonic : String)
deriving DecidableEq, Repr

/-- The state of the block. Views, descriptors, operands and results are in the packets (R20, R31, R47); there is no
program counter and no register file (R20, R21, R22). -/
structure State where
  /-- `CAP_BITS` and `LENTAB` (R6, R30): configuration, written by nothing -/
  cfg : Cfg
  /-- `BITS` (R23) -/
  store : Memory
  /-- `CONF`, the per-bit correction confidence (R25); read by nothing -/
  conf : Cells ConfT
  /-- `LEN` (R24), the loaded length in bits -/
  len : Nat
  /-- `STATUS.LOADED` (R27) -/
  loaded : Bool
  /-- `STATUS.DEBUG`, the strap as sampled at reset (R27, R28) -/
  debug : Bool
  /-- `STATUS.HALTED` (R27, R168) -/
  halted : Bool
  /-- `STATUS.ERRSEEN` (R27), sticky -/
  errSeen : Bool
  /-- `STATUS.FCODE`, code of the first error since reset, 0 if none (R27) -/
  fcode : Nibble
  /-- `STATUS.FOP`, `op` of the first errored command since reset (R27) -/
  fop : Nibble
  /-- the level at the `DEBUG` strap input (R26, R28) -/
  strap : Bool
  /-- the reset input is applied (R190) -/
  resetReq : Bool
  /-- packets waiting at the H-port, oldest first (R168, R174) -/
  hIn : List Offer
  /-- packets waiting at the R-port, oldest first (R168, R174) -/
  rIn : List Offer
  /-- responses sent on the H-port since reset, oldest first (R78) -/
  hOut : List Response
  /-- responses sent on the R-port since reset, oldest first (R78) -/
  rOut : List Response
  /-- the model's own: the port the command in execution arrived on, its privilege level (R172) -/
  port : Port
  /-- the model's own: the confidence sideband of the command in execution (R151) -/
  sideband : List ConfT
  /-- the model's own: how many packets were accepted; argument of `Config.arbiter` -/
  turns : Nat
  /-- the model's own: how many times the store's contents became unspecified; argument of `Config.unspecifiedBit` -/
  epoch : Nat
deriving DecidableEq, Repr

/-- The machine right after reset (R33, R190, R192): EMPTY, not halted, all status zero, store contents unspecified,
nothing in flight. The configuration and the strap are open constants. DESIGN CHOICE (no rule gives them): the reset
input not applied, `port`, `sideband`, `turns`, `epoch` (notes/assumptions/9.md, 13.md, 19.md). -/
def State.reset : State where
  cfg := Config.cfg
  store := []
  conf := []
  len := 0
  loaded := false
  debug := Config.debugStrap
  halted := false
  errSeen := false
  fcode := 0
  fop := 0
  strap := Config.debugStrap
  resetReq := false
  hIn := []
  rIn := []
  hOut := []
  rOut := []
  port := .H
  sideband := []
  turns := 0
  epoch := 0

end Sys2Proof.Machine
end

