-- ==== Sys2Proof/Machine/Flags.lean ====
section
/-! DEFINITION. The status register: its 32-bit view, and the flags error entry writes (spec/10_state.md R27,
spec/60_exceptions.md R167, R168). The block has no other flag. -/

namespace Sys2Proof.Machine

/-- One bit as a 1-bit vector: true is written 1 (R9). -/
def bit1 (b : Bool) : BitVec 1 := BitVec.ofBool b

/-- `STATUS` as the host reads it (R27): `LEN` 31:16, reserved zero 15:12, `FOP` 11:8, `FCODE` 7:4, `ERRSEEN` 3,
`HALTED` 2, `DEBUG` 1, `LOADED` 0. Reading it is not a step and has no effect. -/
def State.status (s : State) : Word :=
  BitVec.ofNat 16 s.len ++ 0#4 ++ s.fop ++ s.fcode ++ bit1 s.errSeen ++ bit1 s.halted ++ bit1 s.debug ++ bit1 s.loaded

/-- The `FATAL` output, "a level equal to `STATUS.HALTED`" (R29). -/
def State.fatal (s : State) : Bool := s.halted

/-- The status writes of error entry (R167): the first error since reset sets `FCODE` and `FOP`, every error sets
`ERRSEEN`, and in debug mode `HALTED`. -/
def State.noteError (e : ErrCode) (op : Nibble) (s : State) : State :=
  { s with
    fcode := if s.errSeen then s.fcode else e.code
    fop := if s.errSeen then s.fop else op
    errSeen := true
    halted := s.halted || s.debug }

end Sys2Proof.Machine
end

