-- ==== Sys2Proof/Machine/Ops.lean ====
section
/-! DEFINITION. The named operations over the store, the responses and the life cycle, error entry, and reset. -/

namespace Sys2Proof.Machine

/-! ## Cells -/

/-- The specified value of a cell, if it has one. -/
def Cells.read {α : Type} : Cells α → Nat → Option α
  | [], _ => none
  | (k, v) :: rest, a => if k = a then some v else Cells.read rest a

/-- Values placed at consecutive addresses from `a` on. -/
def Cells.runFrom {α : Type} (a : Nat) : List α → Cells α
  | [] => []
  | v :: vs => (a, v) :: Cells.runFrom (a + 1) vs

/-- Write `vs` to the cells `a .. a + vs.length - 1` and leave every other cell alone. -/
def Cells.writeRun {α : Type} (a : Nat) (vs : List α) (m : Cells α) : Cells α :=
  m.filter (fun c => decide (c.1 < a)) ++ Cells.runFrom a vs ++ m.filter (fun c => decide (a + vs.length ≤ c.1))

/-- The canonical form: strictly rising addresses. A listed cell always differs from what an unlisted one is (no
specified value), so equal contents are equal lists. -/
def Cells.wf {α : Type} (m : Cells α) : Bool := strictlyAscending (m.map Prod.fst)

/-- The canonical form of the bit store. -/
def Memory.wf (m : Memory) : Bool := Cells.wf m

/-! ## Bits and numbers -/

/-- Most-significant-bit-first packing (R95): the first bit is the most significant, the last has weight 1. -/
def packBits (bs : List Bool) : Nat := bs.foldl (fun r b => 2 * r + b.toNat) 0

/-- The `n` low bits of `v`, most significant first: `v[n-1], ..., v[0]` (R8 `MemWrite`). -/
def unpackBits (n v : Nat) : List Bool := (List.range n).map fun j => v.testBit (n - 1 - j)

/-- `MemWrite(addr, n, v)` (R8): `BITS[addr+j] <- v[n-1-j]`. -/
def Memory.memWrite (addr n v : Nat) (m : Memory) : Memory := Cells.writeRun addr (unpackBits n v) m

/-- `BITS[i]` (R8). A cell without a specified value holds a free bit (R23, U10); R50 says no command reads one. -/
def State.bit (s : State) (i : Nat) : Bool :=
  match Cells.read s.store i with
  | some b => b
  | none => Config.unspecifiedBit s.epoch i

/-- `MemRead(addr, n)` (R8): the `n`-bit value `BITS[addr] ++ ... ++ BITS[addr+n-1]`, first bit most significant. -/
def State.memRead (s : State) (addr n : Nat) : Nat := packBits ((List.range n).map fun k => s.bit (addr + k))

/-- The loaded bits `BITS[0 .. LEN-1]`. -/
def State.contents (s : State) : List Bool := (List.range s.len).map s.bit

/-! ## Responses and error entry -/

/-- `respond(code, w1, w2)` (R8, R78): one response packet, on the port the command came from, after those sent
before. -/
def State.respond (op code : Nibble) (w1 w2 : Word) (s : State) : State :=
  { s with
    hOut := if s.port = .H then s.hOut ++ [⟨responseHead op code, w1, w2⟩] else s.hOut
    rOut := if s.port = .R then s.rOut ++ [⟨responseHead op code, w1, w2⟩] else s.rOut }

/-- The payload of an errored response, `OOBVAL(packet, BITS, LEN)` (R169). -/
def State.errorPayload (s : State) (packet : List Word) : BitVec 64 := Config.oobVal packet s.contents s.len

/-- Error entry, the one exception of the block (R166, R167, R168, R169): the status writes and the response with the
code and the payload, and nothing else. There is no handler, no saved state and no return (R171). -/
def State.raise (e : ErrCode) (op : Nibble) (packet : List Word) (s : State) : State :=
  (s.noteError e op).respond op e.code ((s.errorPayload packet).extractLsb' 32 32) ((s.errorPayload packet).extractLsb' 0 32)

/-! ## Life cycle (R150) -/

/-- The bits a LOAD stores: bit `i` is `D[i div 32][31 - (i mod 32)]` (R151, R45). The default word is never used for a
well-formed LOAD (notes/assumptions/14.md). DESIGN CHOICE. -/
def loadBits (n : Nat) (data : List Word) : List Bool :=
  (List.range n).map fun i => (data.getD (i / 32) 0).getLsbD (31 - i % 32)

/-- The writes of a LOAD that succeeds (R151): bits, confidences, `LEN`, `LOADED`. -/
def State.install (n : Nat) (data : List Word) (s : State) : State :=
  { s with
    store := Cells.writeRun 0 (loadBits n data) s.store
    conf := Cells.writeRun 0 (s.sideband.take n) s.conf
    len := n
    loaded := true }

/-- The writes of a DISCARD that succeeds (R153): `LEN`, `LOADED`; the contents of `BITS` and `CONF` become unspecified
(no cell listed, a new epoch of free bits; notes/assumptions/6.md). DESIGN CHOICE. -/
def State.drop (s : State) : State :=
  { s with
    store := []
    conf := []
    len := 0
    loaded := false
    epoch := s.epoch + 1 }

/-- Reset (R190, R191, R193): every piece of state takes its reset value (R33), what is in flight is dropped, the strap is
sampled, the configuration stays. The reset input is released; the counters of the free values go on.
DEDUCED that one step does it all (notes/assumptions/21.md); DESIGN CHOICE for the counters (19.md). -/
def State.applyReset (s : State) : State :=
  { State.reset with
    cfg := s.cfg
    strap := s.strap
    debug := s.strap
    turns := s.turns
    epoch := s.epoch + 1 }

end Sys2Proof.Machine
end

