-- ==== Sys2Proof/Machine/Operands.lean ====
section
/-! DEFINITION. From the operands of a command to a value or an error: the prologue, descriptor resolution, bounds check
and packing (spec/40_bit_access.md section 1), and the common end of every command. -/

namespace Sys2Proof.Machine

/-- Whether a view is valid: `vbase + vlen <= LEN`, exact naturals (R48, R94). -/
def State.viewValid (s : State) (v : View) : Bool := decide (v.vbase.toNat + v.vlen.toNat ≤ s.len)

/-- The prologue of every command that carries a view (R91). -/
def State.prologue (s : State) (v : View) : Except ErrCode Unit :=
  if s.loaded = false then .error .nobuf
  else if s.viewValid v = false then .error .badview
  else .ok ()

/-- Resolve a contiguous descriptor to view indices (R92). -/
def resolveContig (base start len maxlen : Nat) : Except ErrCode (List Nat) :=
  if len = 0 ∨ maxlen < len then .error .baddesc
  else .ok ((List.range len).map fun k => base + start + k)

/-- Resolve a list descriptor to view indices (R93). -/
def resolveList (base : Nat) (ds : List Nat) (maxlen : Nat) : Except ErrCode (List Nat) :=
  if ds.length = 0 ∨ maxlen < ds.length then .error .baddesc
  else if strictlyAscending ds = false then .error .baddesc
  else .ok (ds.map fun d => base + d)

/-- `resolve(fd, B)` (R135): R92 or R93 by the form of the descriptor. -/
def resolveDesc (base maxlen : Nat) : FieldDesc → Except ErrCode (List Nat)
  | .contig s l => resolveContig base s l maxlen
  | .list ds => resolveList base ds maxlen

/-- Bounds check and packing (R95): every index is checked before any bit is read; the result is zero-extended to `w`
bits. -/
def State.extract (s : State) (w : Nat) (v : View) (idx : List Nat) : Except ErrCode (BitVec w) :=
  if idx.any (fun i => decide (v.vlen.toNat ≤ i)) then .error .oob
  else .ok (BitVec.ofNat w (packBits (idx.map fun i => s.bit (v.vbase.toNat + i))))

/-- Prologue, then the descriptor's indices, then extraction: the shared steps of R98 to R101. -/
def State.field (s : State) (w : Nat) (v : View) (idx : Except ErrCode (List Nat)) : Except ErrCode (BitVec w) := do
  s.prologue v
  s.extract w v (← idx)

/-- The payload of a 32-bit result: word 1 zero, word 2 the value (R79). -/
def intPayload (x : BitVec 32) : Word × Word := (0, x)

/-- The payload of a 64-bit result: word 1 bits 63:32, word 2 bits 31:0 (R79). -/
def longPayload (x : BitVec 64) : Word × Word := (x.extractLsb' 32 32, x.extractLsb' 0 32)

/-- The list operand of GETINTX and GETLONGX as naturals (R84). -/
def listIndices (ds : List Half) : List Nat := ds.map BitVec.toNat

/-- The end of a requester command: the response with `code` 0 and the payload, or error entry. A command that completes
without error changes nothing but the responses sent (R11, R166). -/
def State.answer (i : Instr) (r : Except ErrCode (Word × Word)) (s : State) : State :=
  match r with
  | .ok p => s.respond i.op 0 p.1 p.2
  | .error e => s.raise e i.op (encode i)

end Sys2Proof.Machine
end

