-- ==== Sys2Proof/Machine/BitAccess.lean ====
section
/-! DEFINITION. Bit and field extraction: GET, GETINT, GETLONG, GETINTX, GETLONGX (spec/40_bit_access.md R97 to R101). -/

namespace Sys2Proof.Machine

/-- GET (R97): the index is relative to the view, with no base offset. -/
def getResult (v : View) (i : Half) (s : State) : Except ErrCode (Word × Word) := do
  s.prologue v
  if v.vlen.toNat ≤ i.toNat then .error .oob
  else .ok (0, (bit1 (s.bit (v.vbase.toNat + i.toNat))).setWidth 32)

/-- GET (R97). -/
def execGet (v : View) (i : Half) (s : State) : Host.Outcome State Fault Refusal :=
  .next (s.answer (.get v i) (getResult v i s))

/-- GETINT (R98). -/
def getintResult (v : View) (b st l : Half) (s : State) : Except ErrCode (Word × Word) :=
  (s.field 32 v (resolveContig b.toNat st.toNat l.toNat intMaxLen)).map intPayload

/-- GETINT (R98). -/
def execGetint (v : View) (b st l : Half) (s : State) : Host.Outcome State Fault Refusal :=
  .next (s.answer (.getint v b st l) (getintResult v b st l s))

/-- GETLONG (R99). -/
def getlongResult (v : View) (b st l : Half) (s : State) : Except ErrCode (Word × Word) :=
  (s.field 64 v (resolveContig b.toNat st.toNat l.toNat longMaxLen)).map longPayload

/-- GETLONG (R99). -/
def execGetlong (v : View) (b st l : Half) (s : State) : Host.Outcome State Fault Refusal :=
  .next (s.answer (.getlong v b st l) (getlongResult v b st l s))

/-- GETINTX (R100). -/
def getintxResult (v : View) (b : Half) (ds : List Half) (s : State) : Except ErrCode (Word × Word) :=
  (s.field 32 v (resolveList b.toNat (listIndices ds) intMaxLen)).map intPayload

/-- GETINTX (R100). -/
def execGetintx (v : View) (b : Half) (ds : List Half) (s : State) : Host.Outcome State Fault Refusal :=
  .next (s.answer (.getintx v b ds) (getintxResult v b ds s))

/-- GETLONGX (R101). -/
def getlongxResult (v : View) (b : Half) (ds : List Half) (s : State) : Except ErrCode (Word × Word) :=
  (s.field 64 v (resolveList b.toNat (listIndices ds) longMaxLen)).map longPayload

/-- GETLONGX (R101). -/
def execGetlongx (v : View) (b : Half) (ds : List Half) (s : State) : Host.Outcome State Fault Refusal :=
  .next (s.answer (.getlongx v b ds) (getlongxResult v b ds s))

end Sys2Proof.Machine
end

