-- ==== Sys2Proof/Machine/BitSlice.lean ====
section
/-! DEFINITION. Sub-range views: SUBBUF (spec/41_bit_slice.md R120, R121). -/

namespace Sys2Proof.Machine

/-- The view `(vbase + startBit, endBit - startBit)`: `endBit` exclusive, indices starting again at 0 (R120, R121). No bit
is copied. The inclusive reading of `endBit` (D6) is not modelled: notes/assumptions/16.md. DEDUCED. -/
def subView (v : View) (st e : Half) : View := ⟨v.vbase + st, e - st⟩

/-- SUBBUF (R121). -/
def subbufResult (v : View) (st e : Half) (s : State) : Except ErrCode (Word × Word) := do
  s.prologue v
  if e.toNat < st.toNat then .error .baddesc
  else if v.vlen.toNat < e.toNat then .error .oob
  else .ok (viewWord (subView v st e), 0)

/-- SUBBUF (R121). -/
def execSubbuf (v : View) (st e : Half) (s : State) : Host.Outcome State Fault Refusal :=
  .next (s.answer (.subbuf v st e) (subbufResult v st e s))

end Sys2Proof.Machine
end

