-- ==== Sys2Proof/Machine/HostOps.lean ====
section
/-! DEFINITION. Host operations: LOAD and DISCARD, the only writers of the store (spec/43_host_ops.md R150 to R153). The
port the packet came on is the privilege level they check (spec/60_exceptions.md R172). -/

namespace Sys2Proof.Machine

/-- The error a LOAD of `n` bits raises, if any: PRIV, BUSY, CAP, in that priority (R151, R165). -/
def loadError (n : Half) (s : State) : Option ErrCode :=
  if s.port = .R then some .priv
  else if s.loaded then some .busy
  else if s.cfg.capBits < n.toNat then some .cap
  else none

/-- The state after a LOAD (R151); the response is the root view `(0, LEN)`. -/
def loadNext (n : Half) (data : List Word) (s : State) : State :=
  match loadError n s with
  | some e => s.answer (.load n data) (.error e)
  | none => (s.install n.toNat data).answer (.load n data) (.ok (viewWord ⟨0, n⟩, 0))

/-- LOAD (R151). -/
def execLoad (n : Half) (data : List Word) (s : State) : Host.Outcome State Fault Refusal :=
  .next (loadNext n data s)

/-- The error a DISCARD raises, if any: PRIV, NOBUF, in that priority (R153, R165). -/
def discardError (s : State) : Option ErrCode :=
  if s.port = .R then some .priv
  else if s.loaded = false then some .nobuf
  else none

/-- The state after a DISCARD (R153). -/
def discardNext (s : State) : State :=
  match discardError s with
  | some e => s.answer .discard (.error e)
  | none => s.drop.answer .discard (.ok (0, 0))

/-- DISCARD (R153). -/
def execDiscard (s : State) : Host.Outcome State Fault Refusal :=
  .next (discardNext s)

end Sys2Proof.Machine
end

