-- ==== Sys2Proof/Machine/LengthResolver.lean ====
section
/-! DEFINITION. Structure length resolution: GETLEN (spec/42_length_resolver.md R130 to R141). -/

namespace Sys2Proof.Machine

/-- The GETLEN result word (R136): 31:27 zero, 26 `valid`, 25:24 `kind`, 23:16 `opcode`, 15:0 `length`. -/
def lengthWord (valid : Bool) (kind : BitVec 2) (opc : BitVec 8) (length : Half) : Word :=
  0#5 ++ bit1 valid ++ kind ++ opc ++ length

/-- A field named by a table entry's descriptor, at most 16 bits (R131, R135). -/
def State.tableField (s : State) (v : View) (base : Nat) (fd : FieldDesc) : Except ErrCode Word := do
  s.extract 32 v (← resolveDesc base 16 fd)

/-- The length a count selects: keys 1 to 4 and no other (R134, R135). -/
def countLength (c t1 t2 t3 t4 : Nat) : Option Nat :=
  match c with
  | 1 => some t1
  | 2 => some t2
  | 3 => some t3
  | 4 => some t4
  | _ => none

/-- The result word by the table entry of the opcode (R135): unknown opcode, fixed length, length field, count table. A
count outside 1 to 4 and an unknown opcode are normal answers with `valid = 0` (R137, R138). -/
def State.lengthByKind (s : State) (v : View) (base : Nat) (opc : BitVec 8) : LenKind → Except ErrCode Word
  | .unknown => .ok (lengthWord false LenKind.unknown.code opc 0)
  | .fixed l => .ok (lengthWord true (LenKind.fixed l).code opc (BitVec.ofNat 16 l))
  | .lenField fd => do
    let x ← s.tableField v base fd
    .ok (lengthWord true (LenKind.lenField fd).code opc (x.extractLsb' 0 16))
  | .countTable fd t1 t2 t3 t4 => do
    let c ← s.tableField v base fd
    match countLength c.toNat t1 t2 t3 t4 with
    | some t => .ok (lengthWord true (LenKind.countTable fd t1 t2 t3 t4).code opc (BitVec.ofNat 16 t))
    | none => .ok (lengthWord false (LenKind.countTable fd t1 t2 t3 t4).code opc 0)

/-- The opcode octet at a base offset, `Contig(0, 8)` (R63, R135). -/
def State.opcodeAt (s : State) (v : View) (base : Nat) : Except ErrCode (BitVec 8) := do
  let x ← s.extract 32 v (← resolveContig base 0 8 intMaxLen)
  .ok (x.extractLsb' 0 8)

/-- GETLEN (R135). -/
def getlenResult (v : View) (b : Half) (s : State) : Except ErrCode (Word × Word) := do
  s.prologue v
  let opc ← s.opcodeAt v b.toNat
  let w ← s.lengthByKind v b.toNat opc (s.cfg.kindOf opc)
  .ok (0, w)

/-- GETLEN (R135). -/
def execGetlen (v : View) (b : Half) (s : State) : Host.Outcome State Fault Refusal :=
  .next (s.answer (.getlen v b) (getlenResult v b s))

end Sys2Proof.Machine
end

