-- ==== Sys2Proof/Machine/Dispatch.lean ====
section
/-! DEFINITION. One arm per constructor of `Instr`: the meaning of an accepted, decoded command (R83 step 6). -/

namespace Sys2Proof.Machine

def exec (i : Instr) (s : State) : Host.Outcome State Fault Refusal :=
  match i with
  | .get v idx => Sys2Proof.Machine.execGet v idx s
  | .getint v b st l => Sys2Proof.Machine.execGetint v b st l s
  | .getlong v b st l => Sys2Proof.Machine.execGetlong v b st l s
  | .getintx v b ds => Sys2Proof.Machine.execGetintx v b ds s
  | .getlongx v b ds => Sys2Proof.Machine.execGetlongx v b ds s
  | .subbuf v st e => Sys2Proof.Machine.execSubbuf v st e s
  | .getlen v b => Sys2Proof.Machine.execGetlen v b s
  | .load n data => Sys2Proof.Machine.execLoad n data s
  | .discard => Sys2Proof.Machine.execDiscard s

end Sys2Proof.Machine
end

