-- ==== Sys2Proof/Machine/Ports.lean ====
section
/-! DEFINITION. The two ports (spec/60_exceptions.md R172 to R174): what waits at them, which is served next, acceptance
of a packet, and what the agents outside the block can do to it. -/

namespace Sys2Proof.Machine

/-- The packets waiting at a port, oldest first. -/
def State.offers (s : State) : Port → List Offer
  | .H => s.hIn
  | .R => s.rIn

/-- The responses sent on a port since reset, oldest first. -/
def State.sent (s : State) : Port → List Response
  | .H => s.hOut
  | .R => s.rOut

/-- The port served next (R174): the one that offers a packet; when both do, a free choice. -/
def State.arbitrate (s : State) : Option Port :=
  match s.hIn, s.rIn with
  | [], [] => none
  | _ :: _, [] => some .H
  | [], _ :: _ => some .R
  | _ :: _, _ :: _ => some (Config.arbiter s.turns)

/-- Acceptance of the oldest packet of a port: it leaves the port and becomes the command in execution. -/
def State.take (p : Port) (o : Offer) (s : State) : State :=
  { s with
    hIn := if p = .H then s.hIn.tail else s.hIn
    rIn := if p = .R then s.rIn.tail else s.rIn
    port := p
    sideband := o.confs
    turns := s.turns + 1 }

/-! ## The outside world, not steps of the block -/

/-- An agent offers a packet at a port (R70, R174); it waits behind those offered before. -/
def State.offer (p : Port) (o : Offer) (s : State) : State :=
  { s with
    hIn := if p = .H then s.hIn ++ [o] else s.hIn
    rIn := if p = .R then s.rIn ++ [o] else s.rIn }

/-- The host applies reset (R190); the next step performs it. -/
def State.assertReset (s : State) : State := { s with resetReq := true }

/-- The host sets the `DEBUG` strap level (R28); it has no effect until a reset samples it. -/
def State.setStrap (b : Bool) (s : State) : State := { s with strap := b }

/-- `ROOT`, the root view `(0, LEN)` (R82, R47). -/
def State.rootView (s : State) : View := ⟨0, BitVec.ofNat 16 s.len⟩

end Sys2Proof.Machine
end

