-- ==== Sys2Proof/Machine/Accept.lean ====
section
/-! DEFINITION. Accepting one packet, decoding it and running it (spec/30_encoding.md R83; spec/00_scope.md R10). -/

namespace Sys2Proof.Machine

/-- Decode an accepted packet and run it; a malformed one raises BADCMD with the echoed `op` (R77, R83). The port check
(R83 step 5) is the first check of LOAD and DISCARD. -/
def runPacket (ws : List Word) (s : State) : Host.Outcome State Fault Refusal :=
  match decode ws with
  | .ok i => exec i s
  | .error _ => .next (s.raise .badcmd (opEcho ws) ws)

/-- Accept the oldest packet waiting at a port and run it; where nothing waits, nothing happens. -/
def acceptFrom (p : Port) (s : State) : Host.Outcome State Fault Refusal :=
  match s.offers p with
  | [] => .next s
  | o :: _ => runPacket o.words (s.take p o)

end Sys2Proof.Machine
end

