-- ==== Sys2Proof/Machine/Step.lean ====
section
/-! DEFINITION. One step of the block (spec/00_scope.md R10): a reset that was applied (R190, R191); else nothing, for
ever, while halted (R168); else one command packet accepted from one port, run and answered (R174). -/

namespace Sys2Proof.Machine

/-- One step. Where no packet is offered the block waits: the state is unchanged (notes/assumptions/1.md). DESIGN
CHOICE. -/
def step (s : State) : Host.Outcome State Fault Refusal :=
  if s.resetReq then .next s.applyReset
  else if s.halted then .fault .halted
  else
    match s.arbitrate with
    | none => .next s
    | some p => acceptFrom p s

/-- `s` with the packet whose bits are `w`, as spec/opcode_table.json numbers them, waiting first at the H-port, so that
the next step accepts and runs it: no packet at the R-port that could be served before it, the reset input not applied,
and not halted. It stands for the host's offering a packet; notes/assumptions/4.md. -/
def State.withFetchWord (s : State) (nbits w : Nat) : State :=
  { s with
    hIn := ⟨tableWords nbits w, []⟩ :: s.hIn
    rIn := []
    halted := false
    resetReq := false }

end Sys2Proof.Machine
end

