-- ==== Sys2Proof/Machine/Assembler.lean ====
section
/-! DEFINITION. Written forms and pseudo-instructions (spec/30_encoding.md R62, R81, R82), as abstract syntax. -/

namespace Sys2Proof

/-- `OCTET(n)`, `n >= 1`: the number `(n-1)*8`, whatever `m` is in the source's name (R62, C1). -/
def octetConst (n : Nat) : Nat := (n - 1) * 8

/-- A number that fits an operand field; a larger one "cannot be written at all" (R84, R201). -/
def toHalf? (n : Nat) : Option Half := if n < 65536 then some (BitVec.ofNat 16 n) else none

/-- The view a written view names; `ROOT` is the view of the last successful LOAD (R82). -/
def WrittenView.resolve (root : View) : WrittenView → Option View
  | .pair b l => do
    let vb ← toHalf? b
    let vl ← toHalf? l
    some ⟨vb, vl⟩
  | .root => some root

/-- "data words from the octets in order, the last word padded with zero bits" (R81). -/
def octetWords : List (BitVec 8) → List Word
  | [] => []
  | [a] => [a ++ 0#24]
  | [a, b] => [a ++ b ++ 0#16]
  | [a, b, c] => [a ++ b ++ c ++ 0#8]
  | a :: b :: c :: d :: rest => (a ++ b ++ c ++ d) :: octetWords rest

/-- The indices of a written list; at most 255 fit the field `n` (R71). -/
def toHalves? (ds : List Nat) : Option (List Half) := if ds.length ≤ 255 then ds.mapM toHalf? else none

/-- GETINT from written numbers. -/
def assembleGetint (v : Option View) (b s l : Nat) : Option Instr := do
  let v ← v
  let b ← toHalf? b
  let s ← toHalf? s
  let l ← toHalf? l
  some (.getint v b s l)

/-- The command a written form stands for, with the root view for `ROOT` (R81, R82). -/
def Written.assemble (root : View) : Written → Option Instr
  | .get v i => do
    let v ← v.resolve root
    let i ← toHalf? i
    some (.get v i)
  | .getint v b s l => assembleGetint (v.resolve root) b s l
  | .getlong v b s l => do
    let v ← v.resolve root
    let b ← toHalf? b
    let s ← toHalf? s
    let l ← toHalf? l
    some (.getlong v b s l)
  | .getintx v b ds => do
    let v ← v.resolve root
    let b ← toHalf? b
    let ds ← toHalves? ds
    some (.getintx v b ds)
  | .getlongx v b ds => do
    let v ← v.resolve root
    let b ← toHalf? b
    let ds ← toHalves? ds
    some (.getlongx v b ds)
  | .subbuf v s e => do
    let v ← v.resolve root
    let s ← toHalf? s
    let e ← toHalf? e
    some (.subbuf v s e)
  | .getlen v b => do
    let v ← v.resolve root
    let b ← toHalf? b
    some (.getlen v b)
  | .load n os => do
    let n ← toHalf? n
    if (octetWords os).length = dataWordCount n.toNat then some (.load n (octetWords os)) else none
  | .discard => some .discard
  | .getopcode v b => assembleGetint (v.resolve root) b 0 8
  | .getvendor v b => assembleGetint (v.resolve root) b 8 8
  | .getoctet v b k => assembleGetint (v.resolve root) b (8 * k) 8

/-- The operation a name stands for: the mnemonics of R75 and the source names accepted as aliases (R81). An alias with
two descriptor forms (`getInt`, `getLong`) names the contiguous one here. DEDUCED (notes/assumptions/17.md). -/
def opOfName (name : String) : Option Nibble :=
  if name = "GET" ∨ name = "get" then some 0x1#4
  else if name = "GETINT" ∨ name = "getInt" then some 0x2#4
  else if name = "GETLONG" ∨ name = "getLong" then some 0x3#4
  else if name = "GETINTX" then some 0x4#4
  else if name = "GETLONGX" then some 0x5#4
  else if name = "SUBBUF" ∨ name = "subBuffer" then some 0x6#4
  else if name = "GETLEN" ∨ name = "getLength" then some 0x7#4
  else if name = "LOAD" then some 0x8#4
  else if name = "DISCARD" then some 0x9#4
  else none

/-- The error a response code names (R160); codes 9 to 15 name none. -/
def errOfCode (c : Nibble) : Option ErrCode :=
  if c = 1#4 then some .badcmd
  else if c = 2#4 then some .priv
  else if c = 3#4 then some .nobuf
  else if c = 4#4 then some .busy
  else if c = 5#4 then some .cap
  else if c = 6#4 then some .badview
  else if c = 7#4 then some .baddesc
  else if c = 8#4 then some .oob
  else none

/-- A response as written, `-> ok value` or `-> err CODE` (R81): the value is words 1 and 2. -/
def Response.written (r : Response) : Except (Option ErrCode) (BitVec 64) :=
  if r.code = 0 then .ok (r.w1 ++ r.w2) else .error (errOfCode r.code)

end Sys2Proof
end

