-- ==== Sys2Proof/Safety.lean ====
section
/-! DEFINITION. What a good run and a good state are, in the terms claims use: the end of a run (spec/70 R195), the
obligation that no command ended in error (spec/60 R170), the invariant of the machine, and the predicate `WF_SRC` on
configurations (spec/42 R132, R133). -/

namespace Sys2Proof

/-- The structure-relative indices a descriptor names (R92, R93). -/
def FieldDesc.indices : FieldDesc → List Nat
  | .contig s l => (List.range l).map fun k => s + k
  | .list ds => ds

/-- R132 (a) for one entry: every index of a `LenField` descriptor is below 16. -/
def LenKind.inHeader : LenKind → Bool
  | .unknown => true
  | .fixed _ => true
  | .lenField fd => fd.indices.all fun d => decide (d < 16)
  | .countTable _ _ _ _ _ => true

/-- Whether an entry is a count table. -/
def LenKind.isCountTable : LenKind → Bool
  | .unknown => false
  | .fixed _ => false
  | .lenField _ => false
  | .countTable _ _ _ _ _ => true

/-- R133: the entry of the paging message has `t3 = 8`. -/
def LenKind.thirdIsEight : LenKind → Bool
  | .unknown => false
  | .fixed _ => false
  | .lenField _ => false
  | .countTable _ _ _ t3 _ => decide (t3 = 8)

/-- `WF_SRC` (R132): (a) length fields lie in the first two octets; (b) exactly two opcodes have a count table; (c) one
of them, the paging message, has `t3 = 8` (R133). A premise of claims; the machine does not need it to run. -/
def Cfg.wfSrc (c : Cfg) : Bool :=
  c.lenTab.toList.all LenKind.inHeader
    && decide (c.lenTab.toList.countP LenKind.isCountTable = 2)
    && c.lenTab.toList.any LenKind.thirdIsEight

/-- The view a command carries; the seven requester commands carry one, LOAD and DISCARD none (R72). -/
def Instr.view : Instr → Option View
  | .get v _ => some v
  | .getint v _ _ _ => some v
  | .getlong v _ _ _ => some v
  | .getintx v _ _ => some v
  | .getlongx v _ _ => some v
  | .subbuf v _ _ => some v
  | .getlen v _ => some v
  | .load _ _ => none
  | .discard => none

namespace Machine

/-- The prologue of R91 passes: a buffer is loaded and the view is inside the store. -/
abbrev State.Ready (s : State) (v : View) : Prop :=
  s.loaded = true ∧ v.vbase.toNat + v.vlen.toNat ≤ s.len

/-- The unsigned number whose `n` bits, most significant first, are the store bits at `a 0, ..., a (n-1)`: "sum over
k < n of BITS[a k] * 2^(n-1-k)" (spec/95_test_vectors.md section 12, 1). -/
def State.fieldValue (s : State) (n : Nat) (a : Nat → Nat) : Nat :=
  ∑ k ∈ Finset.range n, (s.bit (a k)).toNat * 2 ^ (n - 1 - k)

/-- From `s` to `t` exactly one response, `r`, was sent, on the port of the command in execution (R78). -/
abbrev State.Sends (s t : State) (r : Response) : Prop :=
  t.hOut = (if s.port = .H then s.hOut ++ [r] else s.hOut) ∧ t.rOut = (if s.port = .R then s.rOut ++ [r] else s.rOut)

/-- Run in `s`, the two commands answer code 0 and the same payload, each with its own `op`. -/
def State.AnswerAlike (s : State) (i j : Instr) : Prop :=
  ∃ t u w1 w2, exec i s = .next t ∧ exec j s = .next u
    ∧ s.Sends t ⟨responseHead i.op 0, w1, w2⟩ ∧ s.Sends u ⟨responseHead j.op 0, w1, w2⟩

/-- Run in `s`, the command answers with code 0. -/
def State.Answers (s : State) (i : Instr) : Prop := ∃ t r, exec i s = .next t ∧ s.Sends t r ∧ r.code = 0

/-- Run in `s`, the command takes error entry for the cause `e`, and nothing else. -/
def State.Errs (s : State) (e : ErrCode) (i : Instr) : Prop := exec i s = .next (s.raise e i.op (encode i))

/-- Everything but the four sticky error bits and the responses is the same in `t` as in `s`. -/
structure State.SameData (s t : State) : Prop where
  cfg : t.cfg = s.cfg
  store : t.store = s.store
  conf : t.conf = s.conf
  len : t.len = s.len
  loaded : t.loaded = s.loaded
  debug : t.debug = s.debug
  strap : t.strap = s.strap
  resetReq : t.resetReq = s.resetReq
  hIn : t.hIn = s.hIn
  rIn : t.rIn = s.rIn
  port : t.port = s.port
  sideband : t.sideband = s.sideband
  turns : t.turns = s.turns
  epoch : t.epoch = s.epoch

/-- The four sticky error bits are the same in `t` as in `s` (R27). -/
structure State.SameFlags (s t : State) : Prop where
  halted : t.halted = s.halted
  errSeen : t.errSeen = s.errSeen
  fcode : t.fcode = s.fcode
  fop : t.fop = s.fop

/-- "No command ended in error" since reset (R170): an obligation of every claim about a program. -/
def State.noError (s : State) : Prop := s.errSeen = false

/-- What agents offer in a run, in the order they offer it: a list of (port, packet) (R195). -/
abbrev Run := List (Port × Offer)

/-- How many transactions of a run are offered at a port. -/
def Run.count (run : Run) (p : Port) : Nat := run.countP fun x => decide (x.1 = p)

/-- `s.Reaches run t`: from the start state `s`, when the agents offer the transactions of `run` in that order, each at any
time, and the block takes steps in between, the block can stand in the state `t` (R174, R195). A reset is no transaction: it
ends a run (notes/assumptions/23.md). DEDUCED. -/
inductive State.Reaches (s : State) : Run → State → Prop where
  /-- nothing offered, no step taken -/
  | start : s.Reaches [] s
  /-- the next transaction is offered -/
  | offer {run : Run} {t : State} (p : Port) (o : Offer) : s.Reaches run t → s.Reaches (run ++ [(p, o)]) (t.offer p o)
  /-- the block takes a step, which is no reset -/
  | step {run : Run} {t u : State} : s.Reaches run t → t.resetReq = false → step t = .next u → s.Reaches run u

/-- A run has ended well in `t`: "every offered packet has been accepted and answered and `STATUS.HALTED = 0`" (R195). On
each port nothing waits, and one response was sent for each packet that waited at the start and each packet of the run. -/
structure State.EndsWell (s : State) (run : Run) (t : State) : Prop where
  reached : s.Reaches run t
  accepted : ∀ p, t.offers p = []
  answered : ∀ p, (t.sent p).length = (s.sent p).length + (s.offers p).length + run.count p
  notHalted : t.halted = false

/-- A run has ended badly in `t`: halted, "with packets still offered or not", the source's "fatal" (R195). -/
structure State.EndsBadly (s : State) (run : Run) (t : State) : Prop where
  reached : s.Reaches run t
  halted : t.halted = true

/-- What holds of the block in every reachable state. -/
structure State.Inv (s : State) : Prop where
  /-- `LEN <= CAP_BITS` (R24) -/
  len_le_cap : s.len ≤ s.cfg.capBits
  /-- the cells with a specified value are exactly `0 .. LEN-1`, in the canonical form (R23) -/
  store_cells : s.store.map Prod.fst = List.range s.len
  /-- `CONF` is in the canonical form and lists no cell from `LEN` on (R25) -/
  conf_wf : Cells.wf s.conf = true
  conf_below : ∀ c ∈ s.conf, c.1 < s.len
  /-- an EMPTY block has `LEN = 0` (R150, R153) -/
  empty_len : s.loaded = false → s.len = 0
  /-- `HALTED` is 1 exactly after an error in debug mode (R27, R168) -/
  halted_iff : s.halted = (s.debug && s.errSeen)
  /-- `FCODE` and `FOP` are 0 until the first error (R27) -/
  no_error_codes : s.errSeen = false → s.fcode = 0 ∧ s.fop = 0
  /-- after it `FCODE` is one of the codes 1 to 8 (R160) -/
  error_code : s.errSeen = true → 1 ≤ s.fcode.toNat ∧ s.fcode.toNat ≤ 8
  /-- `ERRSEEN` tells whether a response since reset had a code other than 0 (R27, R167) -/
  err_seen_iff : s.errSeen = (s.hOut ++ s.rOut).any (fun r => decide (r.code ≠ 0))

end Machine

end Sys2Proof
end

