-- ==== Sys2Proof/Certificates/Slice0/Obligations.lean ====
section
/-! DEFINITION. The statements for the provers. Where one speaks of responses that were sent (`State.Sends`, `State.sent`), it
reads the record of responses that is the model's own (notes/assumptions/11.md). -/

open Sys2Proof Sys2Proof.Machine

/-! ## Packets -/

/-- R76, R71 to R74: decoding the packet of any well-formed command gives the command back, at every operand value. -/
def Obligations.DecodeOfEncodeIsTheCommand : Prop :=
  ∀ i : Instr, i.wf = true → decode (encode i) = .ok i

/-- R76, R77: a packet that decodes is the packet of the command it decodes to, which is well-formed: no bit of a packet
is ignored by the decoder. -/
def Obligations.EncodeOfDecodeIsThePacket : Prop :=
  ∀ (ws : List Word) (i : Instr), decode ws = .ok i → i.wf = true ∧ encode i = ws

/-- R77: the packets that decode to no command are exactly the malformed ones of R77, written out here on the words
themselves. -/
def Obligations.MalformedExactlyAsListed : Prop :=
  ∀ ws : List Word,
    let w0 := ws.getD 0 0
    let w1 := ws.getD 1 0
    let w2 := ws.getD 2 0
    let op := (w0.extractLsb' 28 4).toNat
    let rsv := (w0.extractLsb' 24 4).toNat
    let n := (w0.extractLsb' 16 8).toNat
    let a := (w0.extractLsb' 0 16).toNat
    let isList := op = 4 ∨ op = 5
    let extra := if op = 4 ∨ op = 5 then (n + 1) / 2 else if op = 8 then (a + 31) / 32 else 0
    (∃ m, decode ws = .error m) ↔
      ws.length < 3
      ∨ ws.length ≠ 3 + extra
      ∨ op = 0 ∨ 10 ≤ op
      ∨ rsv ≠ 0
      ∨ (¬ isList ∧ n ≠ 0)
      ∨ ((op = 6 ∨ op = 9) ∧ a ≠ 0)
      ∨ ((op = 8 ∨ op = 9) ∧ w1 ≠ 0)
      ∨ (¬ (op = 2 ∨ op = 3 ∨ op = 6) ∧ w2 ≠ 0)
      ∨ (isList ∧ n % 2 = 1 ∧ (ws.getLastD 0).extractLsb' 0 16 ≠ 0#16)

/-- R71 to R76: words written out from the encoding decode to the commands they stand for, one of each format. -/
def Obligations.WrittenOutWordsDecode : Prop :=
  decode [0x10000003#32, 0x00400028#32, 0#32] = .ok (.get ⟨64, 40⟩ 3)
  ∧ decode [0x20000040#32, 0x00000080#32, 0x000A0006#32] = .ok (.getint ⟨0, 128⟩ 64 10 6)
  ∧ decode [0x40030000#32, 0x00000080#32, 0#32, 0x00030007#32, 0x000E0000#32] = .ok (.getintx ⟨0, 128⟩ 0 [3, 7, 14])
  ∧ decode [0x60000000#32, 0x00400028#32, 0x00100028#32] = .ok (.subbuf ⟨64, 40⟩ 16 40)
  ∧ decode [0x8000000D#32, 0#32, 0#32, 0xA5FF0000#32] = .ok (.load 13 [0xA5FF0000])
  ∧ decode [0x90000000#32, 0#32, 0#32] = .ok .discard

/-- R82, R62: the pseudo-instructions expand to GETINT: GETOPCODE to the octet at the base offset, GETVENDOR to the next one,
GETOCTET to octet `k`; `OCTET(n)` is `(n-1)*8`. `ROOT` stands for the root view that is supplied (log entry 17), and the root
view of a state is `(0, LEN)`, which after a LOAD that succeeds is `(0, n)`, the view that LOAD answered. -/
def Obligations.PseudoInstructionsExpandToGetint : Prop :=
  (∀ (root : View) (v : WrittenView) (b k : Nat),
    (Written.getopcode v b).assemble root = (Written.getint v b 0 8).assemble root
    ∧ (Written.getvendor v b).assemble root = (Written.getint v b 8 8).assemble root
    ∧ (Written.getoctet v b k).assemble root = (Written.getint v b (octetConst (k + 1)) 8).assemble root)
  ∧ (∀ n, octetConst n = (n - 1) * 8)
  ∧ (∀ root : View, WrittenView.root.resolve root = some root)
  ∧ (∀ s : State, s.len ≤ 65535 → s.rootView.vbase.toNat = 0 ∧ s.rootView.vlen.toNat = s.len)
  ∧ (∀ (s : State) (n : Half) (data : List Word), s.port = .H → s.loaded = false → n.toNat ≤ s.cfg.capBits →
      ∃ t, exec (.load n data) s = .next t ∧ t.rootView = ⟨0, n⟩
        ∧ s.Sends t ⟨0x80000000#32, viewWord t.rootView, 0⟩)

/-- R81, R82, R84: the command a written form stands for can be carried by a packet. (That every form with operands in
range does assemble, and to which command, is `WrittenFormAssemblesToItsCommand`.) -/
def Obligations.AssembledCommandIsWellFormed : Prop :=
  ∀ (w : Written) (root : View) (i : Instr), w.assemble root = some i → i.wf = true

/-- R81, R84: every written form whose numbers fit their fields assembles to its command with those operands. A view is
written as a pair or as `ROOT`, which names the root view supplied (log entry 17); the data words of a LOAD hold its octets in order, the last word padded with zero bits. -/
def Obligations.WrittenFormAssemblesToItsCommand : Prop :=
  ∀ (root : View) (wv : WrittenView) (v : View),
    (wv = .pair v.vbase.toNat v.vlen.toNat ∨ (wv = .root ∧ v = root)) →
    (∀ i : Half, (Written.get wv i.toNat).assemble root = some (.get v i))
    ∧ (∀ b st l : Half, (Written.getint wv b.toNat st.toNat l.toNat).assemble root = some (.getint v b st l))
    ∧ (∀ b st l : Half, (Written.getlong wv b.toNat st.toNat l.toNat).assemble root = some (.getlong v b st l))
    ∧ (∀ (b : Half) (ds : List Half), ds.length ≤ 255 →
        (Written.getintx wv b.toNat (ds.map BitVec.toNat)).assemble root = some (.getintx v b ds))
    ∧ (∀ (b : Half) (ds : List Half), ds.length ≤ 255 →
        (Written.getlongx wv b.toNat (ds.map BitVec.toNat)).assemble root = some (.getlongx v b ds))
    ∧ (∀ st e : Half, (Written.subbuf wv st.toNat e.toNat).assemble root = some (.subbuf v st e))
    ∧ (∀ b : Half, (Written.getlen wv b.toNat).assemble root = some (.getlen v b))
    ∧ (∀ (n : Half) (os : List (BitVec 8)), (os.length + 3) / 4 = (n.toNat + 31) / 32 →
        ∃ data, (Written.load n.toNat os).assemble root = some (.load n data) ∧ data.length = (os.length + 3) / 4
          ∧ ∀ k, k < 32 * data.length →
            (data.getD (k / 32) 0).getLsbD (31 - k % 32) = (os.getD (k / 8) 0).getLsbD (7 - k % 8))
    ∧ Written.discard.assemble root = some .discard

/-! ## Steps -/

/-- R10, R83: when a port is served and its oldest packet decodes to `i`, the step is `exec i` on the state in which that
packet has left its port and is the command in execution; the packets behind it and those of the other port stay. The port
and the sideband of the command in execution are the model's own fields (log entries 10 and 13), and so is the counter of
accepted packets, which moves on by one (log entries 2 and 19). -/
def Obligations.StepRunsTheDecodedCommand : Prop :=
  ∀ (s : State) (p : Port) (o : Offer) (rest : List Offer) (i : Instr),
    s.resetReq = false → s.halted = false → s.arbitrate = some p → s.offers p = o :: rest → decode o.words = .ok i →
    step s = exec i (s.take p o)
    ∧ (s.take p o).offers p = rest
    ∧ (∀ q, q ≠ p → (s.take p o).offers q = s.offers q)
    ∧ (s.take p o).port = p ∧ (s.take p o).sideband = o.confs ∧ (s.take p o).turns = s.turns + 1
    ∧ (s.take p o).store = s.store ∧ (s.take p o).conf = s.conf ∧ (s.take p o).status = s.status
    ∧ (s.take p o).hOut = s.hOut ∧ (s.take p o).rOut = s.rOut

/-- R77, R83: a served packet that is malformed raises BADCMD, whatever the port; the response echoes `op` of word 0, or
0 for an empty packet. -/
def Obligations.MalformedPacketRaisesBadcmd : Prop :=
  ∀ (s : State) (p : Port) (o : Offer) (rest : List Offer) (m : Malformed),
    s.resetReq = false → s.halted = false → s.arbitrate = some p → s.offers p = o :: rest → decode o.words = .error m →
    ∃ t, step s = .next t
      ∧ (s.take p o).Sends t ⟨((o.words.headD 0).extractLsb' 28 4 : BitVec 4) ++ 1#4 ++ 0#24,
          ((s.take p o).errorPayload o.words).extractLsb' 32 32, ((s.take p o).errorPayload o.words).extractLsb' 0 32⟩
      ∧ (s.take p o).SameData t ∧ t.errSeen = true ∧ t.halted = s.debug
      ∧ (s.errSeen = false → t.fcode = 1#4 ∧ t.fop = (o.words.headD 0).extractLsb' 28 4)
      ∧ (s.errSeen = true → t.fcode = s.fcode ∧ t.fop = s.fop)

/-- R174: the served port is one that offers a packet, and none is served only when none offers. When both offer, the spec
leaves the choice open, and the step is the acceptance from the port that the free choice Config.arbiter names for this
packet (log entries 2 and 19). -/
def Obligations.EitherOfferingPortIsServed : Prop :=
  ∀ s : State,
    (s.arbitrate = none ↔ s.hIn = [] ∧ s.rIn = [])
    ∧ (∀ p, s.arbitrate = some p → s.offers p ≠ [])
    ∧ (s.hIn ≠ [] → s.rIn = [] → s.arbitrate = some .H)
    ∧ (s.rIn ≠ [] → s.hIn = [] → s.arbitrate = some .R)
    ∧ (s.hIn ≠ [] → s.rIn ≠ [] → s.arbitrate = some (Config.arbiter s.turns))
    ∧ (∀ p, s.resetReq = false → s.halted = false → s.arbitrate = some p → step s = acceptFrom p s)

/-- R78: an accepted packet is answered by exactly one response, on its port, after those sent before; it echoes `op`,
has bits 23:0 zero and a code from 0 to 8; the packet leaves the port and the other port is untouched. -/
def Obligations.EveryAcceptedPacketIsAnsweredOnce : Prop :=
  ∀ (s : State) (p : Port) (o : Offer) (rest : List Offer),
    s.resetReq = false → s.halted = false → s.arbitrate = some p → s.offers p = o :: rest →
    ∃ t r, step s = .next t
      ∧ t.sent p = s.sent p ++ [r] ∧ t.offers p = rest
      ∧ (∀ q, q ≠ p → t.sent q = s.sent q ∧ t.offers q = s.offers q)
      ∧ r.w0.extractLsb' 28 4 = (o.words.headD 0).extractLsb' 28 4
      ∧ (r.w0.extractLsb' 24 4).toNat ≤ 8
      ∧ r.w0.extractLsb' 0 24 = 0#24

/-- R168: a halted block has no enabled step but reset; the model says so with the fault `halted` (log entry 12). Nothing else
stops a step, also not that no packet is offered (log entry 1), and no step is refused. -/
def Obligations.OnlyAHaltedBlockIsStuck : Prop :=
  ∀ s : State,
    (s.halted = true → s.resetReq = false → step s = .fault .halted)
    ∧ (∀ f, step s = .fault f → s.halted = true ∧ s.resetReq = false)
    ∧ (∀ r, step s ≠ .refused r)

/-- R190, R191, R193: an applied reset takes effect in one step, also from the halted state: the status and `LEN` are zero,
nothing of the store is specified, what waited at the ports and what was in flight is dropped, the strap is sampled,
and the configuration is kept. That reset is one step, and what the record of responses holds after it, are the model's
choice (log entries 11 and 21). -/
def Obligations.ResetGivesTheResetState : Prop :=
  ∀ s : State, s.resetReq = true →
    ∃ t, step s = .next t
      ∧ t.len = 0 ∧ t.loaded = false ∧ t.halted = false ∧ t.errSeen = false ∧ t.fcode = 0 ∧ t.fop = 0
      ∧ t.debug = s.strap ∧ t.fatal = false
      ∧ t.hIn = [] ∧ t.rIn = [] ∧ t.hOut = [] ∧ t.rOut = []
      ∧ t.cfg = s.cfg ∧ t.strap = s.strap ∧ t.resetReq = false
      ∧ (∀ a, Cells.read t.store a = none) ∧ (∀ a, Cells.read t.conf a = none)
      ∧ t.status = (if s.strap then 2#32 else 0#32)

/-! ## Error entry and the status register -/

/-- R167: error entry in both build modes: the first error since reset sets `FCODE` and `FOP`, every error sets `ERRSEEN`,
debug mode halts after the response, which carries the code and the payload of R169, the free OOBVAL (log entry 7);
nothing else changes. -/
def Obligations.ErrorEntryRecordsTheFirstError : Prop :=
  ∀ (s : State) (e : ErrCode) (op : Nibble) (ws : List Word),
    (s.errSeen = false → (s.raise e op ws).fcode = e.code ∧ (s.raise e op ws).fop = op)
    ∧ (s.errSeen = true → (s.raise e op ws).fcode = s.fcode ∧ (s.raise e op ws).fop = s.fop)
    ∧ (s.raise e op ws).errSeen = true
    ∧ (s.raise e op ws).halted = (s.halted || s.debug)
    ∧ s.Sends (s.raise e op ws) ⟨op ++ e.code ++ 0#24,
        (Config.oobVal ws ((List.range s.len).map s.bit) s.len).extractLsb' 32 32,
        (Config.oobVal ws ((List.range s.len).map s.bit) s.len).extractLsb' 0 32⟩
    ∧ s.SameData (s.raise e op ws)

/-- R27: every field of `STATUS` stands at its place in the 32-bit word, and the reserved bits read 0. -/
def Obligations.StatusWordHasEveryFieldInPlace : Prop :=
  ∀ s : State,
    s.status.getLsbD 0 = s.loaded ∧ s.status.getLsbD 1 = s.debug ∧ s.status.getLsbD 2 = s.halted
    ∧ s.status.getLsbD 3 = s.errSeen
    ∧ s.status.extractLsb' 4 4 = s.fcode ∧ s.status.extractLsb' 8 4 = s.fop
    ∧ s.status.extractLsb' 12 4 = 0#4
    ∧ (s.len ≤ 65535 → (s.status.extractLsb' 16 16).toNat = s.len)

/-- R171, R27: once an error was seen, no step but reset clears `ERRSEEN` or changes `FCODE` or `FOP`, and no step but reset
changes `STATUS.DEBUG`. -/
def Obligations.ErrorBitsStayUntilReset : Prop :=
  ∀ s t : State, step s = .next t → s.resetReq = false →
    t.debug = s.debug
    ∧ (s.errSeen = true → t.errSeen = true ∧ t.fcode = s.fcode ∧ t.fop = s.fop)

/-- R168, R169: in release mode no step but reset halts the block. -/
def Obligations.ReleaseModeGoesOn : Prop :=
  ∀ s t : State, step s = .next t → s.resetReq = false → s.debug = false → t.halted = false

/-! ## Errors of the commands -/

/-- R91: the prologue of every command that carries a view. `NOBUF` when no buffer is loaded, else `BADVIEW` when the view
is not inside the store. -/
def Obligations.PrologueChecksBufferThenView : Prop :=
  ∀ (s : State) (i : Instr) (v : View), i.view = some v →
    (s.loaded = false → exec i s = .next (s.raise .nobuf i.op (encode i)))
    ∧ (s.loaded = true → s.len < v.vbase.toNat + v.vlen.toNat → exec i s = .next (s.raise .badview i.op (encode i)))

/-- R92, R93, R164: a bad descriptor raises `BADDESC` before any bounds check, whether or not its indices are in bounds. -/
def Obligations.BadDescriptorRaisesBaddesc : Prop :=
  ∀ (s : State) (v : View), s.Ready v →
    (∀ b st l : Half, l.toNat = 0 ∨ 32 < l.toNat →
      exec (.getint v b st l) s = .next (s.raise .baddesc 2#4 (encode (.getint v b st l))))
    ∧ (∀ b st l : Half, l.toNat = 0 ∨ 64 < l.toNat →
      exec (.getlong v b st l) s = .next (s.raise .baddesc 3#4 (encode (.getlong v b st l))))
    ∧ (∀ (b : Half) (ds : List Half), ds = [] ∨ 32 < ds.length ∨ ¬ (ds.map BitVec.toNat).Pairwise (· < ·) →
      exec (.getintx v b ds) s = .next (s.raise .baddesc 4#4 (encode (.getintx v b ds))))
    ∧ (∀ (b : Half) (ds : List Half), ds = [] ∨ 64 < ds.length ∨ ¬ (ds.map BitVec.toNat).Pairwise (· < ·) →
      exec (.getlongx v b ds) s = .next (s.raise .baddesc 5#4 (encode (.getlongx v b ds))))
    ∧ (∀ st e : Half, e.toNat < st.toNat →
      exec (.subbuf v st e) s = .next (s.raise .baddesc 6#4 (encode (.subbuf v st e))))

/-- R95, R49, R94: with a valid view and a valid descriptor, an index that is not below the view's length raises `OOB`;
sums are exact, so an index that would wrap at 16 bits is out of bounds. -/
def Obligations.IndexNotBelowViewLengthRaisesOob : Prop :=
  ∀ (s : State) (v : View), s.Ready v →
    (∀ k : Half, v.vlen.toNat ≤ k.toNat → exec (.get v k) s = .next (s.raise .oob 1#4 (encode (.get v k))))
    ∧ (∀ b st l : Half, 1 ≤ l.toNat → l.toNat ≤ 32 → v.vlen.toNat < b.toNat + st.toNat + l.toNat →
      exec (.getint v b st l) s = .next (s.raise .oob 2#4 (encode (.getint v b st l))))
    ∧ (∀ b st l : Half, 1 ≤ l.toNat → l.toNat ≤ 64 → v.vlen.toNat < b.toNat + st.toNat + l.toNat →
      exec (.getlong v b st l) s = .next (s.raise .oob 3#4 (encode (.getlong v b st l))))
    ∧ (∀ (b : Half) (ds : List Half), ds ≠ [] → ds.length ≤ 32 → (ds.map BitVec.toNat).Pairwise (· < ·) →
      (∃ d ∈ ds, v.vlen.toNat ≤ b.toNat + d.toNat) →
      exec (.getintx v b ds) s = .next (s.raise .oob 4#4 (encode (.getintx v b ds))))
    ∧ (∀ (b : Half) (ds : List Half), ds ≠ [] → ds.length ≤ 64 → (ds.map BitVec.toNat).Pairwise (· < ·) →
      (∃ d ∈ ds, v.vlen.toNat ≤ b.toNat + d.toNat) →
      exec (.getlongx v b ds) s = .next (s.raise .oob 5#4 (encode (.getlongx v b ds))))
    ∧ (∀ st e : Half, st.toNat ≤ e.toNat → v.vlen.toNat < e.toNat →
      exec (.subbuf v st e) s = .next (s.raise .oob 6#4 (encode (.subbuf v st e))))
    ∧ (∀ b : Half, v.vlen.toNat < b.toNat + 8 →
      exec (.getlen v b) s = .next (s.raise .oob 7#4 (encode (.getlen v b))))

/-- R151, R172, R165: the errors of LOAD, in their priority: `PRIV` on the R-port, `BUSY` when a buffer is loaded, `CAP`
when it is too long. Error entry is all that happens: nothing is written. -/
def Obligations.LoadErrorsInPriority : Prop :=
  ∀ (s : State) (n : Half) (data : List Word),
    (s.port = .R → exec (.load n data) s = .next (s.raise .priv 8#4 (encode (.load n data))))
    ∧ (s.port = .H → s.loaded = true → exec (.load n data) s = .next (s.raise .busy 8#4 (encode (.load n data))))
    ∧ (s.port = .H → s.loaded = false → s.cfg.capBits < n.toNat →
        exec (.load n data) s = .next (s.raise .cap 8#4 (encode (.load n data))))

/-- R153, R172: the errors of DISCARD, in their priority: `PRIV` on the R-port, `NOBUF` when nothing is loaded. -/
def Obligations.DiscardErrorsInPriority : Prop :=
  ∀ s : State,
    (s.port = .R → exec .discard s = .next (s.raise .priv 9#4 [0x90000000#32, 0#32, 0#32]))
    ∧ (s.port = .H → s.loaded = false → exec .discard s = .next (s.raise .nobuf 9#4 [0x90000000#32, 0#32, 0#32]))

/-! ## Reads -/

/-- R97: GET answers the bit at its index in the view, and does nothing else. -/
def Obligations.GetAnswersTheIndexedBit : Prop :=
  ∀ (s : State) (v : View) (k : Half), s.Ready v → k.toNat < v.vlen.toNat →
    ∃ t, exec (.get v k) s = .next t
      ∧ s.Sends t ⟨0x10000000#32, 0, if s.bit (v.vbase.toNat + k.toNat) then 1 else 0⟩
      ∧ s.SameData t ∧ s.SameFlags t
      ∧ ∀ a, Cells.read t.store a = Cells.read s.store a

/-- R98, R95: GETINT answers the field of `l` bits from `B + startBit` on, most significant bit first, and does nothing
else. -/
def Obligations.GetintAnswersTheField : Prop :=
  ∀ (s : State) (v : View) (b st l : Half), s.Ready v → 1 ≤ l.toNat → l.toNat ≤ 32 →
    b.toNat + st.toNat + l.toNat ≤ v.vlen.toNat →
    ∃ t x, exec (.getint v b st l) s = .next t
      ∧ x.toNat = s.fieldValue l.toNat (fun k => v.vbase.toNat + (b.toNat + st.toNat + k))
      ∧ s.Sends t ⟨0x20000000#32, 0, x⟩
      ∧ s.SameData t ∧ s.SameFlags t
      ∧ ∀ a, Cells.read t.store a = Cells.read s.store a

/-- R99, R95: GETLONG answers the field of up to 64 bits in words 1 (bits 63:32) and 2 (bits 31:0), and does nothing
else. -/
def Obligations.GetlongAnswersTheField : Prop :=
  ∀ (s : State) (v : View) (b st l : Half), s.Ready v → 1 ≤ l.toNat → l.toNat ≤ 64 →
    b.toNat + st.toNat + l.toNat ≤ v.vlen.toNat →
    ∃ (t : State) (hi lo : Word), exec (.getlong v b st l) s = .next t
      ∧ hi.toNat * 2 ^ 32 + lo.toNat = s.fieldValue l.toNat (fun k => v.vbase.toNat + (b.toNat + st.toNat + k))
      ∧ s.Sends t ⟨0x30000000#32, hi, lo⟩
      ∧ s.SameData t ∧ s.SameFlags t
      ∧ ∀ a, Cells.read t.store a = Cells.read s.store a

/-- R100, R95: GETINTX answers the listed bits squeezed together, the first listed most significant, and does nothing
else. -/
def Obligations.GetintxAnswersTheListedBits : Prop :=
  ∀ (s : State) (v : View) (b : Half) (ds : List Half), s.Ready v → ds ≠ [] → ds.length ≤ 32 →
    (ds.map BitVec.toNat).Pairwise (· < ·) → (∀ d ∈ ds, b.toNat + d.toNat < v.vlen.toNat) →
    ∃ t x, exec (.getintx v b ds) s = .next t
      ∧ x.toNat = s.fieldValue ds.length (fun k => v.vbase.toNat + (b.toNat + (ds.getD k 0).toNat))
      ∧ s.Sends t ⟨0x40000000#32, 0, x⟩
      ∧ s.SameData t ∧ s.SameFlags t
      ∧ ∀ a, Cells.read t.store a = Cells.read s.store a

/-- R101, R95: GETLONGX answers up to 64 listed bits in words 1 and 2, and does nothing else. -/
def Obligations.GetlongxAnswersTheListedBits : Prop :=
  ∀ (s : State) (v : View) (b : Half) (ds : List Half), s.Ready v → ds ≠ [] → ds.length ≤ 64 →
    (ds.map BitVec.toNat).Pairwise (· < ·) → (∀ d ∈ ds, b.toNat + d.toNat < v.vlen.toNat) →
    ∃ (t : State) (hi lo : Word), exec (.getlongx v b ds) s = .next t
      ∧ hi.toNat * 2 ^ 32 + lo.toNat = s.fieldValue ds.length (fun k => v.vbase.toNat + (b.toNat + (ds.getD k 0).toNat))
      ∧ s.Sends t ⟨0x50000000#32, hi, lo⟩
      ∧ s.SameData t ∧ s.SameFlags t
      ∧ ∀ a, Cells.read t.store a = Cells.read s.store a

/-- R61: the contiguous descriptor and the list of the same indices give the same result and the same errors, for every
view, base offset, result width and limit. -/
def Obligations.DescriptorFormsAgree : Prop :=
  ∀ (s : State) (w maxlen : Nat) (v : View) (b st l : Nat),
    s.field w v (resolveDesc b maxlen (.contig st l))
      = s.field w v (resolveDesc b maxlen (.list ((List.range l).map fun k => st + k)))

/-- R96: GETINTX with the list `[s, ..., s+l-1]` answers the same code as GETINT with `(s, l)`, the same payload where the
code is 0, and leaves the same `ERRSEEN`, `HALTED` and `FCODE`; likewise GETLONGX and GETLONG. An errored payload is the
free OOBVAL of two different packets (log entry 22). -/
def Obligations.ListCommandAnswersAsContiguous : Prop :=
  ∀ (s : State) (v : View) (b st l : Half) (ds : List Half),
    ds.map BitVec.toNat = (List.range l.toNat).map (fun k => st.toNat + k) →
    (∃ t t' r r', exec (.getint v b st l) s = .next t ∧ exec (.getintx v b ds) s = .next t'
      ∧ s.Sends t r ∧ s.Sends t' r' ∧ r.code = r'.code ∧ (r.code = 0 → r.w1 = r'.w1 ∧ r.w2 = r'.w2)
      ∧ t.errSeen = t'.errSeen ∧ t.halted = t'.halted ∧ t.fcode = t'.fcode)
    ∧ (∃ t t' r r', exec (.getlong v b st l) s = .next t ∧ exec (.getlongx v b ds) s = .next t'
      ∧ s.Sends t r ∧ s.Sends t' r' ∧ r.code = r'.code ∧ (r.code = 0 → r.w1 = r'.w1 ∧ r.w2 = r'.w2)
      ∧ t.errSeen = t'.errSeen ∧ t.halted = t'.halted ∧ t.fcode = t'.fcode)

/-- R99 (corner case), 95_test_vectors.md section 12, 3: for a field of at most 32 bits GETLONG answers word 1 zero and in
word 2 what GETINT answers. -/
def Obligations.ShortGetlongIsGetint : Prop :=
  ∀ (s : State) (v : View) (b st l : Half), s.Ready v → 1 ≤ l.toNat → l.toNat ≤ 32 →
    b.toNat + st.toNat + l.toNat ≤ v.vlen.toNat →
    ∃ (t t' : State) (x : Word), exec (.getint v b st l) s = .next t ∧ exec (.getlong v b st l) s = .next t'
      ∧ s.Sends t ⟨0x20000000#32, 0, x⟩ ∧ s.Sends t' ⟨0x30000000#32, 0, x⟩

/-- R103: the round trip. If the store holds the `l` bits of `x`, most significant first, at the field a command names,
the command returns `x`: GETLONG for every `l` from 1 to 64, GETINT when `l <= 32`, and the same for a strictly ascending
list. -/
def Obligations.StoredValueIsReadBack : Prop :=
  ∀ (s : State) (v : View) (b : Half) (x : BitVec 64) (l : Nat), s.Ready v → 1 ≤ l → l ≤ 64 → x.toNat < 2 ^ l →
    (∀ st : Half, b.toNat + st.toNat + l ≤ v.vlen.toNat →
      (∀ j, j < l → s.bit (v.vbase.toNat + b.toNat + st.toNat + j) = x.getLsbD (l - 1 - j)) →
      (∃ t, exec (.getlong v b st (BitVec.ofNat 16 l)) s = .next t
        ∧ s.Sends t ⟨0x30000000#32, x.extractLsb' 32 32, x.extractLsb' 0 32⟩)
      ∧ (l ≤ 32 → ∃ t, exec (.getint v b st (BitVec.ofNat 16 l)) s = .next t
        ∧ s.Sends t ⟨0x20000000#32, 0, x.extractLsb' 0 32⟩))
    ∧ (∀ ds : List Half, ds.length = l → (ds.map BitVec.toNat).Pairwise (· < ·) →
      (∀ d ∈ ds, b.toNat + d.toNat < v.vlen.toNat) →
      (∀ j, j < l → s.bit (v.vbase.toNat + b.toNat + (ds.getD j 0).toNat) = x.getLsbD (l - 1 - j)) →
      (∃ t, exec (.getlongx v b ds) s = .next t
        ∧ s.Sends t ⟨0x50000000#32, x.extractLsb' 32 32, x.extractLsb' 0 32⟩)
      ∧ (l ≤ 32 → ∃ t, exec (.getintx v b ds) s = .next t
        ∧ s.Sends t ⟨0x40000000#32, 0, x.extractLsb' 0 32⟩))

/-- R104: a field of `p + q` bits is the field of its first `p` bits times `2^q` plus the field of its last `q` bits, and
moving the base offset is the same as moving the start; for GETLONG, whenever the commands are encodable. -/
def Obligations.FieldsSplitAndJoin : Prop :=
  ∀ (s : State) (v : View), s.Ready v →
    (∀ b st p q stp pq : Half, 1 ≤ p.toNat → 1 ≤ q.toNat → p.toNat + q.toNat ≤ 64 →
      pq.toNat = p.toNat + q.toNat → stp.toNat = st.toNat + p.toNat →
      b.toNat + st.toNat + p.toNat + q.toNat ≤ v.vlen.toNat →
      ∃ (t t1 t2 : State) (x x1 x2 : BitVec 64),
        exec (.getlong v b st pq) s = .next t ∧ s.Sends t ⟨0x30000000#32, x.extractLsb' 32 32, x.extractLsb' 0 32⟩
        ∧ exec (.getlong v b st p) s = .next t1 ∧ s.Sends t1 ⟨0x30000000#32, x1.extractLsb' 32 32, x1.extractLsb' 0 32⟩
        ∧ exec (.getlong v b stp q) s = .next t2 ∧ s.Sends t2 ⟨0x30000000#32, x2.extractLsb' 32 32, x2.extractLsb' 0 32⟩
        ∧ x.toNat = x1.toNat * 2 ^ q.toNat + x2.toNat)
    ∧ (∀ b st l m bm stm : Half, 1 ≤ l.toNat → l.toNat ≤ 64 → bm.toNat = b.toNat + m.toNat →
      stm.toNat = st.toNat + m.toNat → b.toNat + m.toNat + st.toNat + l.toNat ≤ v.vlen.toNat →
      ∃ (t t' : State) (r : Response),
        exec (.getlong v bm st l) s = .next t ∧ exec (.getlong v b stm l) s = .next t' ∧ s.Sends t r ∧ s.Sends t' r)

/-! ## Views -/

/-- R121: SUBBUF answers the view of bits `startBit` to `endBit - 1`, and touches nothing. -/
def Obligations.SubbufAnswersTheNarrowerView : Prop :=
  ∀ (s : State) (v : View) (st e : Half), s.Ready v → s.len ≤ 65535 → st.toNat ≤ e.toNat → e.toNat ≤ v.vlen.toNat →
    ∃ (t : State) (vb vl : Half), exec (.subbuf v st e) s = .next t
      ∧ vb.toNat = v.vbase.toNat + st.toNat ∧ vl.toNat = e.toNat - st.toNat
      ∧ s.Sends t ⟨0x60000000#32, vb ++ vl, 0⟩
      ∧ s.SameData t ∧ s.SameFlags t
      ∧ ∀ a, Cells.read t.store a = Cells.read s.store a

/-- R122: the child of a successful SUBBUF is a valid view inside its parent, and every read through it that is in its bounds
answers what the parent answers `startBit` further on: one bit, a contiguous or a listed field of either width, and a
structure's length. -/
def Obligations.ChildViewReadsTheParentsBits : Prop :=
  ∀ (s : State) (v : View) (st e : Half), s.Ready v → s.len ≤ 65535 → st.toNat ≤ e.toNat → e.toNat ≤ v.vlen.toNat →
    v.vbase.toNat ≤ (subView v st e).vbase.toNat
    ∧ (subView v st e).vbase.toNat + (subView v st e).vlen.toNat ≤ v.vbase.toNat + v.vlen.toNat
    ∧ s.Ready (subView v st e)
    ∧ (∀ k kst : Half, kst.toNat = k.toNat + st.toNat → k.toNat < (subView v st e).vlen.toNat →
        s.AnswerAlike (.get (subView v st e) k) (.get v kst))
    ∧ ∀ b bst : Half, bst.toNat = b.toNat + st.toNat →
        (∀ f l : Half, 1 ≤ l.toNat → b.toNat + f.toNat + l.toNat ≤ (subView v st e).vlen.toNat →
          (l.toNat ≤ 32 → s.AnswerAlike (.getint (subView v st e) b f l) (.getint v bst f l))
          ∧ (l.toNat ≤ 64 → s.AnswerAlike (.getlong (subView v st e) b f l) (.getlong v bst f l)))
        ∧ (∀ ds : List Half, ds ≠ [] → (ds.map BitVec.toNat).Pairwise (· < ·) →
          (∀ d ∈ ds, b.toNat + d.toNat < (subView v st e).vlen.toNat) →
          (ds.length ≤ 32 → s.AnswerAlike (.getintx (subView v st e) b ds) (.getintx v bst ds))
          ∧ (ds.length ≤ 64 → s.AnswerAlike (.getlongx (subView v st e) b ds) (.getlongx v bst ds)))
        ∧ (∀ t r, exec (.getlen (subView v st e) b) s = .next t → s.Sends t r → r.code = 0 →
          s.AnswerAlike (.getlen (subView v st e) b) (.getlen v bst))

/-- R123: slices compose. The slice `s2 .. e2` of the slice `s1 .. e1` is answered as the slice `s1+s2 .. s1+e2` of the view,
whenever both slicings of the left side succeed. -/
def Obligations.SlicesCompose : Prop :=
  ∀ (s : State) (v : View) (s1 e1 s2 e2 s12 e12 : Half), s.Ready v → s.len ≤ 65535 →
    s1.toNat ≤ e1.toNat → e1.toNat ≤ v.vlen.toNat → s2.toNat ≤ e2.toNat → e2.toNat ≤ e1.toNat - s1.toNat →
    s12.toNat = s1.toNat + s2.toNat → e12.toNat = s1.toNat + e2.toNat →
    ∃ (t1 t2 t3 : State) (w : Word),
      exec (.subbuf v s1 e1) s = .next t1 ∧ s.Sends t1 ⟨0x60000000#32, viewWord (subView v s1 e1), 0⟩
      ∧ exec (.subbuf (subView v s1 e1) s2 e2) s = .next t2 ∧ s.Sends t2 ⟨0x60000000#32, w, 0⟩
      ∧ exec (.subbuf v s12 e12) s = .next t3 ∧ s.Sends t3 ⟨0x60000000#32, w, 0⟩

/-- R124: reading a structure through the slice `B .. B + 8*length` with base offset 0 enforces its declared length: a read
that goes past it raises `OOB` through the slice, although the parent view answers it with code 0. It holds of GET, of
contiguous fields and of lists, of either width. -/
def Obligations.SliceEnforcesTheDeclaredLength : Prop :=
  ∀ (s : State) (v : View) (b e : Half) (octets : Nat), s.Ready v → s.len ≤ 65535 →
    e.toNat = b.toNat + 8 * octets → e.toNat ≤ v.vlen.toNat →
    (∀ k bk : Half, 8 * octets ≤ k.toNat → bk.toNat = b.toNat + k.toNat → bk.toNat < v.vlen.toNat →
      s.Errs .oob (.get (subView v b e) k) ∧ s.Answers (.get v bk))
    ∧ (∀ f l : Half, 1 ≤ l.toNat → 8 * octets < f.toNat + l.toNat → b.toNat + f.toNat + l.toNat ≤ v.vlen.toNat →
      (l.toNat ≤ 32 → s.Errs .oob (.getint (subView v b e) 0 f l) ∧ s.Answers (.getint v b f l))
      ∧ (l.toNat ≤ 64 → s.Errs .oob (.getlong (subView v b e) 0 f l) ∧ s.Answers (.getlong v b f l)))
    ∧ (∀ ds : List Half, ds ≠ [] → (ds.map BitVec.toNat).Pairwise (· < ·) → (∃ d ∈ ds, 8 * octets ≤ d.toNat) →
      (∀ d ∈ ds, b.toNat + d.toNat < v.vlen.toNat) →
      (ds.length ≤ 32 → s.Errs .oob (.getintx (subView v b e) 0 ds) ∧ s.Answers (.getintx v b ds))
      ∧ (ds.length ≤ 64 → s.Errs .oob (.getlongx (subView v b e) 0 ds) ∧ s.Answers (.getlongx v b ds)))

/-! ## Structure lengths -/

/-- R135, R136, R137, R138: what GETLEN answers when the opcode octet is in the view, by the kind of the opcode's table
entry, and for a length field or count field of either descriptor form when its indices are in the view. The error bits and
everything else stay. -/
def Obligations.GetlenAnswersByKind : Prop :=
  ∀ (s : State) (v : View) (b : Half) (opc : BitVec 8), s.Ready v → b.toNat + 8 ≤ v.vlen.toNat →
    opc.toNat = s.fieldValue 8 (fun k => v.vbase.toNat + (b.toNat + k)) →
    (s.cfg.kindOf opc = .unknown →
      ∃ t, exec (.getlen v b) s = .next t ∧ s.SameData t ∧ s.SameFlags t
        ∧ s.Sends t ⟨0x70000000#32, 0, 0#5 ++ 0#1 ++ 0#2 ++ opc ++ 0#16⟩)
    ∧ (∀ n, s.cfg.kindOf opc = .fixed n →
      ∃ t, exec (.getlen v b) s = .next t ∧ s.SameData t ∧ s.SameFlags t
        ∧ s.Sends t ⟨0x70000000#32, 0, 0#5 ++ 1#1 ++ 1#2 ++ opc ++ BitVec.ofNat 16 n⟩)
    ∧ (∀ fd, s.cfg.kindOf opc = .lenField fd → (∀ d ∈ fd.indices, b.toNat + d < v.vlen.toNat) →
      ∃ t, exec (.getlen v b) s = .next t ∧ s.SameData t ∧ s.SameFlags t
        ∧ s.Sends t ⟨0x70000000#32, 0, 0#5 ++ 1#1 ++ 2#2 ++ opc ++ BitVec.ofNat 16
            (s.fieldValue fd.indices.length (fun k => v.vbase.toNat + (b.toNat + fd.indices.getD k 0)))⟩)
    ∧ (∀ fd t1 t2 t3 t4, s.cfg.kindOf opc = .countTable fd t1 t2 t3 t4 →
      (∀ d ∈ fd.indices, b.toNat + d < v.vlen.toNat) →
      ∃ t c, exec (.getlen v b) s = .next t ∧ s.SameData t ∧ s.SameFlags t
        ∧ c = s.fieldValue fd.indices.length (fun k => v.vbase.toNat + (b.toNat + fd.indices.getD k 0))
        ∧ (c = 1 → s.Sends t ⟨0x70000000#32, 0, 0#5 ++ 1#1 ++ 3#2 ++ opc ++ BitVec.ofNat 16 t1⟩)
        ∧ (c = 2 → s.Sends t ⟨0x70000000#32, 0, 0#5 ++ 1#1 ++ 3#2 ++ opc ++ BitVec.ofNat 16 t2⟩)
        ∧ (c = 3 → s.Sends t ⟨0x70000000#32, 0, 0#5 ++ 1#1 ++ 3#2 ++ opc ++ BitVec.ofNat 16 t3⟩)
        ∧ (c = 4 → s.Sends t ⟨0x70000000#32, 0, 0#5 ++ 1#1 ++ 3#2 ++ opc ++ BitVec.ofNat 16 t4⟩)
        ∧ (c = 0 ∨ 4 < c → s.Sends t ⟨0x70000000#32, 0, 0#5 ++ 0#1 ++ 3#2 ++ opc ++ 0#16⟩))

/-- R135, R165: a length field or count field that is not wholly in the view raises `OOB`, although the opcode octet is in
it; an index of either descriptor form counts. -/
def Obligations.GetlenFieldOutsideTheViewRaisesOob : Prop :=
  ∀ (s : State) (v : View) (b : Half) (opc : BitVec 8) (fd : FieldDesc), s.Ready v → b.toNat + 8 ≤ v.vlen.toNat →
    opc.toNat = s.fieldValue 8 (fun k => v.vbase.toNat + (b.toNat + k)) →
    (s.cfg.kindOf opc = .lenField fd ∨ ∃ t1 t2 t3 t4, s.cfg.kindOf opc = .countTable fd t1 t2 t3 t4) →
    (∃ d ∈ fd.indices, v.vlen.toNat ≤ b.toNat + d) →
    exec (.getlen v b) s = .next (s.raise .oob 7#4 (encode (.getlen v b)))

/-- R131: with the structural conditions on `LENTAB`, which every configuration of the model meets, GETLEN never answers
`BADDESC`: its codes are success, `NOBUF`, `BADVIEW` and `OOB`. -/
def Obligations.GetlenNeverAnswersBaddesc : Prop :=
  ∀ (s : State) (v : View) (b : Half), ∃ t r, exec (.getlen v b) s = .next t ∧ s.Sends t r
    ∧ (r.code = 0 ∨ r.code = ErrCode.nobuf.code ∨ r.code = ErrCode.badview.code ∨ r.code = ErrCode.oob.code)

/-- R141, R132: with a table that satisfies `WF_SRC`, on a ready view GETLEN needs only the first two octets for an opcode
that has no count table: it answers code 0. (For a count table the spec cannot promise it: log entry 18.) -/
def Obligations.TwoOctetsSufficeWithoutCountTable : Prop :=
  ∀ (s : State) (v : View) (b : Half) (opc : BitVec 8), s.Ready v → s.cfg.wfSrc = true →
    b.toNat + 16 ≤ v.vlen.toNat → opc.toNat = s.fieldValue 8 (fun k => v.vbase.toNat + (b.toNat + k)) →
    (s.cfg.kindOf opc).isCountTable = false →
    ∃ t r, exec (.getlen v b) s = .next t ∧ s.Sends t r ∧ r.code = 0 ∧ s.SameFlags t ∧ s.SameData t

/-! ## Host operations -/

/-- R151: a LOAD on the H-port of an empty block that fits creates the buffer: bit `i` of the store is bit `31 - i mod 32` of
data word `i div 32`, cell `i` of `CONF` is confidence `i` of the sideband, cells from `n` on are as before, `LEN` and
`LOADED` are set, the answer is the root view `(0, n)`, and nothing else changes. -/
def Obligations.LoadCreatesTheBuffer : Prop :=
  ∀ (s : State) (n : Half) (data : List Word), (Instr.load n data).wf = true → s.port = .H → s.loaded = false →
    n.toNat ≤ s.cfg.capBits →
    ∃ t, exec (.load n data) s = .next t
      ∧ (∀ k, k < n.toNat → Cells.read t.store k = some ((data.getD (k / 32) 0).getLsbD (31 - k % 32)))
      ∧ (∀ k, n.toNat ≤ k → Cells.read t.store k = Cells.read s.store k)
      ∧ (n.toNat ≤ s.sideband.length → ∀ k, k < n.toNat → Cells.read t.conf k = s.sideband[k]?)
      ∧ (∀ k, n.toNat ≤ k → Cells.read t.conf k = Cells.read s.conf k)
      ∧ t.len = n.toNat ∧ t.loaded = true
      ∧ s.Sends t ⟨0x80000000#32, 0#16 ++ n, 0⟩
      ∧ s.SameFlags t
      ∧ t.cfg = s.cfg ∧ t.debug = s.debug ∧ t.strap = s.strap ∧ t.resetReq = s.resetReq ∧ t.hIn = s.hIn ∧ t.rIn = s.rIn
      ∧ t.port = s.port ∧ t.sideband = s.sideband ∧ t.turns = s.turns

/-- R151: the same in the notation of R8: LOAD stores what `MemWrite(32*j, w, D[j][31:32-w])` over the data words stores, with
`w = 32` but for a last partial word. -/
def Obligations.LoadIsTheMemWritesOfItsWords : Prop :=
  ∀ (s : State) (n : Half) (data : List Word), (Instr.load n data).wf = true → s.port = .H → s.loaded = false →
    n.toNat ≤ s.cfg.capBits →
    ∃ t, exec (.load n data) s = .next t ∧ ∀ a, Cells.read t.store a =
      Cells.read ((List.range data.length).foldl (fun m j =>
        let w := min 32 (n.toNat - 32 * j)
        Memory.memWrite (32 * j) w ((data.getD j 0).toNat / 2 ^ (32 - w)) m) s.store) a

/-- R153: a DISCARD on the H-port of a loaded block makes it empty: `LEN` and `LOADED` are 0, no cell holds a specified
value, the error bits are not touched, and nothing else changes. -/
def Obligations.DiscardEmptiesTheBlock : Prop :=
  ∀ s : State, s.port = .H → s.loaded = true →
    ∃ t, exec .discard s = .next t
      ∧ t.len = 0 ∧ t.loaded = false ∧ (∀ a, Cells.read t.store a = none) ∧ (∀ a, Cells.read t.conf a = none)
      ∧ s.Sends t ⟨0x90000000#32, 0, 0⟩
      ∧ s.SameFlags t
      ∧ t.cfg = s.cfg ∧ t.debug = s.debug ∧ t.strap = s.strap ∧ t.resetReq = s.resetReq ∧ t.hIn = s.hIn ∧ t.rIn = s.rIn
      ∧ t.port = s.port ∧ t.sideband = s.sideband ∧ t.turns = s.turns

/-! ## The whole machine -/

/-- R11, R166: a requester command changes no data; it leaves the error bits alone exactly when its response has code 0, and
otherwise its only effects are those of error entry. -/
def Obligations.RequesterCommandsChangeNoData : Prop :=
  ∀ (s : State) (i : Instr) (v : View), i.view = some v →
    ∃ t r, exec i s = .next t ∧ s.Sends t r ∧ s.SameData t
      ∧ (r.code = 0 → s.SameFlags t)
      ∧ (r.code ≠ 0 → t.errSeen = true ∧ t.halted = (s.halted || s.debug)
          ∧ t.fcode = (if s.errSeen then s.fcode else r.code) ∧ t.fop = (if s.errSeen then s.fop else i.op))

/-- R11, R50: the response to a requester command depends only on the command, the loaded bits, `LEN`, `LOADED` and the
configuration: two states that agree on these, and may differ in every cell from `LEN` on and in everything else, give
the same response. For an errored response it rests on the arguments the model gives OOBVAL (log entry 7). -/
def Obligations.ResponseDependsOnLoadedBitsOnly : Prop :=
  ∀ (s s' : State) (i : Instr) (v : View), i.view = some v →
    s.cfg = s'.cfg → s.loaded = s'.loaded → s.len = s'.len → (∀ a, a < s.len → s.bit a = s'.bit a) →
    ∃ t t' r, exec i s = .next t ∧ exec i s' = .next t' ∧ s.Sends t r ∧ s'.Sends t' r

/-- R14: between a LOAD that succeeded and the next DISCARD or reset no step changes `BITS`, `CONF` or `LEN`: from a loaded
state a step that is no reset leaves them, or is the acceptance of a DISCARD on the H-port. -/
def Obligations.LoadedBufferIsImmutable : Prop :=
  ∀ s t : State, step s = .next t → s.resetReq = false → s.loaded = true →
    (t.store = s.store ∧ t.conf = s.conf ∧ t.len = s.len ∧ t.loaded = true ∧ t.epoch = s.epoch)
    ∨ (∃ o rest, s.arbitrate = some .H ∧ s.offers .H = o :: rest ∧ decode o.words = .ok .discard ∧ t.loaded = false)

/-- R172: no packet that arrives on the R-port changes the store, the confidences, `LEN` or `LOADED`, whatever its words. -/
def Obligations.RPortNeverChangesTheBuffer : Prop :=
  ∀ s t : State, acceptFrom .R s = .next t →
    t.store = s.store ∧ t.conf = s.conf ∧ t.len = s.len ∧ t.loaded = s.loaded ∧ t.cfg = s.cfg ∧ t.hOut = s.hOut

/-- R193, R30, R28: no step changes the configuration or the strap, reset included, and no step but reset changes
`STATUS.DEBUG`. -/
def Obligations.ConfigurationNeverChanges : Prop :=
  ∀ s t : State, step s = .next t → t.cfg = s.cfg ∧ t.strap = s.strap ∧ (s.resetReq = false → t.debug = s.debug)

/-- The invariant of the machine (R23, R24, R25, R27, R150, R160, R167, R168): every step keeps it, from every state that
has it. Its clauses on the lists of cells and on the record of responses are the model's form of these rules (log entries 5,
10 and 11). -/
def Obligations.EveryStepKeepsTheInvariant : Prop :=
  ∀ s t : State, s.Inv → step s = .next t → t.Inv

/-- The invariant holds after reset (the values the spec gives, R33, and the model's own of log entries 5, 9, 11). -/
def Obligations.ResetHasTheInvariant : Prop := State.reset.Inv

/-- R23, R24, R50: in a state that has the invariant `LEN` fits 16 bits, every address below `LEN` reads a specified bit and no
address from `LEN` on does, and the store's list is in the canonical form, which is the model's (log entry 5). -/
def Obligations.LoadedBitsAreSpecified : Prop :=
  ∀ s : State, s.Inv → s.len ≤ 65535 ∧ Memory.wf s.store = true
    ∧ (∀ a, a < s.len → ∃ x, Cells.read s.store a = some x ∧ s.bit a = x)
    ∧ (∀ a, s.len ≤ a → Cells.read s.store a = none)

/-- R169: an errored payload is a function of the packet and the store: repeating a requester command repeats its answer,
errors and their payloads included (the arguments of OOBVAL are those of log entry 7). -/
def Obligations.RepeatedCommandRepeatsTheAnswer : Prop :=
  ∀ (s : State) (i : Instr) (v : View), i.view = some v →
    ∃ t t' r, exec i s = .next t ∧ exec i t = .next t' ∧ s.Sends t r ∧ t.Sends t' r

/-- R167, 95_test_vectors.md section 12, 7: while no error was seen, `ERRSEEN` stays 0 through the acceptance of a packet
exactly when the response to it has code 0. -/
def Obligations.ErrseenStaysClearIffTheResponseIsOk : Prop :=
  ∀ (s : State) (p : Port) (o : Offer) (rest : List Offer), s.errSeen = false →
    s.resetReq = false → s.halted = false → s.arbitrate = some p → s.offers p = o :: rest →
    ∃ t r, step s = .next t ∧ t.sent p = s.sent p ++ [r] ∧ (t.errSeen = false ↔ r.code = 0)

/-! ## Runs -/

/-- R78, R168, R195: in every state a run can reach, and at each port, the packets that wait and the responses sent together
are those of the start and the transactions offered: no packet is lost, answered twice, or dropped without an answer. So
the run has ended well exactly when nothing waits and the block is not halted. A run holds no reset (log entry 23). -/
def Obligations.EveryOfferedPacketIsAnsweredOrWaits : Prop :=
  ∀ (s t : State) (run : Run), s.Reaches run t →
    (∀ p, (t.sent p).length + (t.offers p).length = (s.sent p).length + (s.offers p).length + run.count p)
    ∧ (∀ p, s.sent p <+: t.sent p)
    ∧ (s.EndsWell run t ↔ t.hIn = [] ∧ t.rIn = [] ∧ t.halted = false)

/-- R195, R169, 95_test_vectors.md section 12, 6: in release mode every run can end well, from every state that is not halted
and to which no reset is applied: whatever the agents offer, all of it can be accepted and answered. A run holds no reset (log
entry 23). -/
def Obligations.ReleaseModeRunsCanEndWell : Prop :=
  ∀ (s : State) (run : Run), s.resetReq = false → s.halted = false → s.debug = false → ∃ t, s.EndsWell run t

/-- R167, R170, 95_test_vectors.md section 12, 7: from a state with `ERRSEEN = 0`, `ERRSEEN` is 0 at the end of a run exactly
when every response of the run has code 0; and a run ends badly exactly when it is in debug mode and some response has
another code. A run holds no reset (log entry 23). -/
def Obligations.ErrseenIsClearIffEveryResponseOfTheRunIsOk : Prop :=
  ∀ (s t : State) (run : Run), s.Reaches run t → s.errSeen = false → s.halted = false →
    ∃ hs rs, t.hOut = s.hOut ++ hs ∧ t.rOut = s.rOut ++ rs
      ∧ (t.errSeen = false ↔ ∀ r ∈ hs ++ rs, r.code = 0)
      ∧ (s.EndsBadly run t ↔ s.debug = true ∧ ∃ r ∈ hs ++ rs, r.code ≠ 0)
end

