-- ==== Sys2Proof/Laws/Bits.lean ====
section
/-! SUPPORT. Packing bits into a number and back (spec/40 R95, R103, R104; spec/00 R8): what a field's value is. -/

namespace Sys2Proof.Machine

@[simp] theorem packBits_nil : packBits [] = 0 := rfl

/-- Packing one bit more: the bits so far move up by one and the new one has weight 1 (R95). -/
@[simp] theorem packBits_concat (bs : List Bool) (b : Bool) : packBits (bs ++ [b]) = 2 * packBits bs + b.toNat := by
  simp [packBits]

/-- A field of `p + q` bits is its first part times `2^q` plus its last part (R104). -/
theorem packBits_append (xs ys : List Bool) : packBits (xs ++ ys) = packBits xs * 2 ^ ys.length + packBits ys := by
  induction ys using List.reverseRecOn with
  | nil => simp
  | append_singleton ys y ih =>
    rw [← List.append_assoc, packBits_concat, packBits_concat, ih, List.length_append, List.length_singleton]
    ring

/-- A packed field of `n` bits is below `2^n` (R102). -/
theorem packBits_lt (bs : List Bool) : packBits bs < 2 ^ bs.length := by
  induction bs using List.reverseRecOn with
  | nil => simp
  | append_singleton bs b ih =>
    have hb : b.toNat ≤ 1 := Bool.toNat_le b
    rw [packBits_concat, List.length_append, List.length_singleton, pow_succ]
    omega

/-- Packing the first `n` values of `f` is the weighted sum, the first value having weight `2^(n-1)`. -/
theorem packBits_range (n : Nat) (f : Nat → Bool) :
    packBits ((List.range n).map f) = ∑ k ∈ Finset.range n, (f k).toNat * 2 ^ (n - 1 - k) := by
  induction n with
  | zero => simp
  | succ n ih =>
    rw [List.range_succ, List.map_append, List.map_singleton, packBits_concat, ih, Finset.sum_range_succ, Finset.mul_sum]
    congr 1
    · refine Finset.sum_congr rfl fun k hk => ?_
      have hk : k < n := Finset.mem_range.mp hk
      rw [show n + 1 - 1 - k = (n - 1 - k) + 1 by omega, pow_succ]
      ring
    · simp

/-- Packing the bits of `v`, most significant first, gives the low `n` bits of `v` (R103). -/
theorem packBits_unpackBits (n v : Nat) : packBits (unpackBits n v) = v % 2 ^ n := by
  unfold unpackBits
  induction n generalizing v with
  | zero => simp [Nat.mod_one]
  | succ n ih =>
    have h : ((List.range (n + 1)).map fun j => v.testBit (n + 1 - 1 - j))
        = ((List.range n).map fun j => (v / 2).testBit (n - 1 - j)) ++ [v.testBit 0] := by
      rw [List.range_succ, List.map_append, List.map_singleton]
      congr 1
      · refine List.map_congr_left fun j hj => ?_
        have hj : j < n := List.mem_range.mp hj
        rw [show n + 1 - 1 - j = (n - 1 - j) + 1 by omega, Nat.testBit_succ]
      · simp
    rw [h, packBits_concat, ih, Nat.testBit_zero]
    have h2 : (decide (v % 2 = 1)).toNat = v % 2 := by
      rcases Nat.mod_two_eq_zero_or_one v with h | h <;> simp [h]
    rw [h2, pow_succ]
    have := Nat.mod_mul (x := v) (a := 2) (b := 2 ^ n)
    rw [mul_comm (2 ^ n) 2]
    omega

@[simp] theorem unpackBits_length (n v : Nat) : (unpackBits n v).length = n := by simp [unpackBits]

/-- `MemRead` is the weighted sum of its bits. -/
theorem State.memRead_eq_fieldValue (s : State) (a n : Nat) : s.memRead a n = s.fieldValue n (fun k => a + k) :=
  packBits_range n fun k => s.bit (a + k)

/-- The value of a field of `n` bits is below `2^n`. -/
theorem State.fieldValue_lt (s : State) (n : Nat) (a : Nat → Nat) : s.fieldValue n a < 2 ^ n := by
  have h := packBits_lt ((List.range n).map fun k => s.bit (a k))
  rw [packBits_range, List.length_map, List.length_range] at h
  exact h

end Sys2Proof.Machine
end

