-- ==== Sys2Proof/Laws/Layout.lean ====
section
/-! SUPPORT. The fields of the words the encoder writes, and back: one lemma per field, so that no proof unfolds a word's
layout. -/

namespace Sys2Proof

/-! ## Words as numbers -/

/-- Concatenation as a number. -/
theorem toNat_append_add {n m : Nat} (x : BitVec n) (y : BitVec m) : (x ++ y).toNat = x.toNat * 2 ^ m + y.toNat := by
  rw [BitVec.toNat_append, ← Nat.shiftLeft_add_eq_or_of_lt y.isLt, Nat.shiftLeft_eq]

theorem headerWord_toNat (op : Nibble) (n : BitVec 8) (a : Half) :
    (headerWord op n a).toNat = op.toNat * 2 ^ 28 + n.toNat * 2 ^ 16 + a.toNat := by
  change (op ++ 0#4 ++ n ++ a).toNat = _
  simp only [toNat_append_add, BitVec.toNat_ofNat]
  omega

theorem pairWord_toNat (hi lo : Half) : (pairWord hi lo).toNat = hi.toNat * 2 ^ 16 + lo.toNat := by
  change (hi ++ lo).toNat = _
  rw [toNat_append_add]

theorem responseHead_toNat (op code : Nibble) : (responseHead op code).toNat = op.toNat * 2 ^ 28 + code.toNat * 2 ^ 24 := by
  change (op ++ code ++ 0#24).toNat = _
  simp only [toNat_append_add, BitVec.toNat_ofNat]
  omega

theorem opOf_toNat (w : Word) : (opOf w).toNat = w.toNat / 2 ^ 28 := by
  have := w.isLt
  simp only [opOf, BitVec.extractLsb'_toNat, Nat.shiftRight_eq_div_pow]
  omega

theorem rsvOf_toNat (w : Word) : (rsvOf w).toNat = w.toNat / 2 ^ 24 % 16 := by
  simp only [rsvOf, BitVec.extractLsb'_toNat, Nat.shiftRight_eq_div_pow]

theorem countOf_toNat (w : Word) : (countOf w).toNat = w.toNat / 2 ^ 16 % 256 := by
  simp only [countOf, BitVec.extractLsb'_toNat, Nat.shiftRight_eq_div_pow]

theorem hiHalf_toNat (w : Word) : (hiHalf w).toNat = w.toNat / 2 ^ 16 := by
  have := w.isLt
  simp only [hiHalf, BitVec.extractLsb'_toNat, Nat.shiftRight_eq_div_pow]
  omega

theorem loHalf_toNat (w : Word) : (loHalf w).toNat = w.toNat % 2 ^ 16 := by
  simp only [loHalf, BitVec.extractLsb'_toNat, Nat.shiftRight_eq_div_pow]
  omega

/-! ## Fields of the words the encoder writes -/

@[simp] theorem opOf_headerWord (op : Nibble) (n : BitVec 8) (a : Half) : opOf (headerWord op n a) = op := by
  apply BitVec.eq_of_toNat_eq
  have := n.isLt; have := a.isLt
  rw [opOf_toNat, headerWord_toNat]
  omega

@[simp] theorem rsvOf_headerWord (op : Nibble) (n : BitVec 8) (a : Half) : rsvOf (headerWord op n a) = 0#4 := by
  apply BitVec.eq_of_toNat_eq
  have := n.isLt; have := a.isLt
  rw [rsvOf_toNat, headerWord_toNat, BitVec.toNat_ofNat]
  omega

@[simp] theorem countOf_headerWord (op : Nibble) (n : BitVec 8) (a : Half) : countOf (headerWord op n a) = n := by
  apply BitVec.eq_of_toNat_eq
  have := n.isLt; have := a.isLt
  rw [countOf_toNat, headerWord_toNat]
  omega

@[simp] theorem loHalf_headerWord (op : Nibble) (n : BitVec 8) (a : Half) : loHalf (headerWord op n a) = a := by
  apply BitVec.eq_of_toNat_eq
  have := n.isLt; have := a.isLt
  rw [loHalf_toNat, headerWord_toNat]
  omega

@[simp] theorem hiHalf_pairWord (hi lo : Half) : hiHalf (pairWord hi lo) = hi := by
  apply BitVec.eq_of_toNat_eq
  have := lo.isLt
  rw [hiHalf_toNat, pairWord_toNat]
  omega

@[simp] theorem loHalf_pairWord (hi lo : Half) : loHalf (pairWord hi lo) = lo := by
  apply BitVec.eq_of_toNat_eq
  have := lo.isLt
  rw [loHalf_toNat, pairWord_toNat]
  omega

@[simp] theorem pairWord_halves (w : Word) : pairWord (hiHalf w) (loHalf w) = w := by
  apply BitVec.eq_of_toNat_eq
  rw [pairWord_toNat, hiHalf_toNat, loHalf_toNat]
  omega

/-- A header whose `rsv` is 0 is the header of its fields. -/
theorem headerWord_fields (w : Word) (h : rsvOf w = 0#4) : headerWord (opOf w) (countOf w) (loHalf w) = w := by
  apply BitVec.eq_of_toNat_eq
  have h' : w.toNat / 2 ^ 24 % 16 = 0 := by rw [← rsvOf_toNat, h]; rfl
  rw [headerWord_toNat, opOf_toNat, countOf_toNat, loHalf_toNat]
  omega

@[simp] theorem viewOf_viewWord (v : View) : viewOf (viewWord v) = v := by
  simp [viewOf, viewWord]

@[simp] theorem viewWord_viewOf (w : Word) : viewWord (viewOf w) = w := by
  simp [viewOf, viewWord]

@[simp] theorem pairWord_zero : pairWord 0 0 = 0 := by decide

/-! ## List words -/

@[simp] theorem unpackHalves_nil : unpackHalves [] = [] := rfl

@[simp] theorem unpackHalves_cons (w : Word) (ws : List Word) :
    unpackHalves (w :: ws) = hiHalf w :: loHalf w :: unpackHalves ws := rfl

theorem unpackHalves_length (ws : List Word) : (unpackHalves ws).length = 2 * ws.length := by
  induction ws with
  | nil => rfl
  | cons w ws ih => simp [ih]; omega

theorem packHalves_length (ds : List Half) : (packHalves ds).length = listWordCount ds.length := by
  induction ds using packHalves.induct with
  | case1 => rfl
  | case2 d => simp [packHalves, listWordCount]
  | case3 d0 d1 rest ih => simp [packHalves, ih, listWordCount]; omega

/-- The list words of a list hold the list, then a zero half when its length is odd. -/
theorem unpackHalves_packHalves (ds : List Half) :
    unpackHalves (packHalves ds) = ds ++ List.replicate (ds.length % 2) 0 := by
  induction ds using packHalves.induct with
  | case1 => rfl
  | case2 d => simp [packHalves]
  | case3 d0 d1 rest ih => simp [packHalves, ih, show (rest.length + 1 + 1) % 2 = rest.length % 2 by omega]

/-- A list operand is read back from its list words. -/
theorem listOperand_packHalves (ds : List Half) : listOperand ds.length (packHalves ds) = .ok ds := by
  simp only [listOperand, unpackHalves_packHalves]
  rw [if_pos]
  · simp
  · simp

/-- The words of a list are determined by its halves. -/
theorem packHalves_of_unpackHalves (ws : List Word) (n : Nat) (hn : ws.length = listWordCount n)
    (hz : ∀ d ∈ (unpackHalves ws).drop n, d = 0) : packHalves ((unpackHalves ws).take n) = ws := by
  induction ws generalizing n with
  | nil => simp [packHalves]
  | cons w ws ih =>
    match n with
    | 0 => simp [listWordCount] at hn
    | 1 =>
      have : ws = [] := by simpa [listWordCount] using hn
      subst this
      simp only [unpackHalves_cons, unpackHalves_nil] at hz ⊢
      have h0 : loHalf w = 0 := hz _ (by simp)
      simp only [List.take_succ_cons, List.take_zero, packHalves]
      rw [← h0, pairWord_halves]
    | n + 2 =>
      simp only [unpackHalves_cons, List.take_succ_cons, packHalves, pairWord_halves, List.cons.injEq, true_and]
      apply ih n
      · simp only [List.length_cons, listWordCount] at hn ⊢
        omega
      · simpa using hz

/-- The inversion of a list operand: it is the first `n` halves, and any further half is 0. -/
theorem listOperand_ok {n : Nat} {ext : List Word} {ds : List Half} (h : listOperand n ext = .ok ds) :
    ds = (unpackHalves ext).take n ∧ ∀ d ∈ (unpackHalves ext).drop n, d = 0 := by
  unfold listOperand at h
  split at h
  · rename_i hz
    refine ⟨(Except.ok.inj h).symm, fun d hd => ?_⟩
    simpa using List.all_eq_true.mp hz d hd
  · cases h

/-! ## Responses -/

@[simp] theorem opOf_responseHead (op code : Nibble) : opOf (responseHead op code) = op := by
  apply BitVec.eq_of_toNat_eq
  have := code.isLt
  rw [opOf_toNat, responseHead_toNat]
  omega

@[simp] theorem rsvOf_responseHead (op code : Nibble) : rsvOf (responseHead op code) = code := by
  apply BitVec.eq_of_toNat_eq
  have := code.isLt
  rw [rsvOf_toNat, responseHead_toNat]
  omega

@[simp] theorem responseHead_low (op code : Nibble) : (responseHead op code).extractLsb' 0 24 = 0#24 := by
  apply BitVec.eq_of_toNat_eq
  rw [BitVec.extractLsb'_toNat, responseHead_toNat, Nat.shiftRight_eq_div_pow, BitVec.toNat_ofNat]
  omega

@[simp] theorem Response.op_mk (op code : Nibble) (w1 w2 : Word) : (Response.mk (responseHead op code) w1 w2).op = op :=
  opOf_responseHead op code

@[simp] theorem Response.code_mk (op code : Nibble) (w1 w2 : Word) :
    (Response.mk (responseHead op code) w1 w2).code = code :=
  rsvOf_responseHead op code

/-- No error code is 0 (R160). -/
theorem ErrCode.code_ne_zero (e : ErrCode) : e.code ≠ 0#4 := by cases e <;> decide

/-- Every error code is at most 8 (R160). -/
theorem ErrCode.code_le (e : ErrCode) : 1 ≤ e.code.toNat ∧ e.code.toNat ≤ 8 := by cases e <;> decide

/-! ## Ascending lists -/

/-- The adjacent test of R93 says that the list is strictly ascending. -/
theorem strictlyAscending_iff (ds : List Nat) : strictlyAscending ds = true ↔ ds.Pairwise (· < ·) := by
  induction ds with
  | nil => simp [strictlyAscending]
  | cons a rest ih =>
    cases rest with
    | nil => simp [strictlyAscending]
    | cons b rest =>
      simp only [strictlyAscending, Bool.and_eq_true, decide_eq_true_eq, ih]
      constructor
      · rintro ⟨hab, hp⟩
        refine List.pairwise_cons.mpr ⟨fun c hc => ?_, hp⟩
        rcases List.mem_cons.mp hc with rfl | hc
        · exact hab
        · exact lt_trans hab (List.rel_of_pairwise_cons hp hc)
      · intro hp
        exact ⟨List.rel_of_pairwise_cons hp (by simp), hp.tail⟩

end Sys2Proof
end

