-- ==== Sys2Proof/Laws/State.lean ====
section
/-! SUPPORT. What each state update does to each field: one lemma per field per update, true by `rfl`. -/

namespace Sys2Proof.Machine

variable (s : State)

/-! ## noteError -/

@[simp] theorem State.noteError_cfg (e : ErrCode) (op : Nibble) : (s.noteError e op).cfg = s.cfg := rfl
@[simp] theorem State.noteError_store (e : ErrCode) (op : Nibble) : (s.noteError e op).store = s.store := rfl
@[simp] theorem State.noteError_conf (e : ErrCode) (op : Nibble) : (s.noteError e op).conf = s.conf := rfl
@[simp] theorem State.noteError_len (e : ErrCode) (op : Nibble) : (s.noteError e op).len = s.len := rfl
@[simp] theorem State.noteError_loaded (e : ErrCode) (op : Nibble) : (s.noteError e op).loaded = s.loaded := rfl
@[simp] theorem State.noteError_debug (e : ErrCode) (op : Nibble) : (s.noteError e op).debug = s.debug := rfl
@[simp] theorem State.noteError_halted (e : ErrCode) (op : Nibble) : (s.noteError e op).halted = (s.halted || s.debug) := rfl
@[simp] theorem State.noteError_errSeen (e : ErrCode) (op : Nibble) : (s.noteError e op).errSeen = true := rfl
@[simp] theorem State.noteError_fcode (e : ErrCode) (op : Nibble) : (s.noteError e op).fcode = (if s.errSeen then s.fcode else e.code) := rfl
@[simp] theorem State.noteError_fop (e : ErrCode) (op : Nibble) : (s.noteError e op).fop = (if s.errSeen then s.fop else op) := rfl
@[simp] theorem State.noteError_strap (e : ErrCode) (op : Nibble) : (s.noteError e op).strap = s.strap := rfl
@[simp] theorem State.noteError_resetReq (e : ErrCode) (op : Nibble) : (s.noteError e op).resetReq = s.resetReq := rfl
@[simp] theorem State.noteError_hIn (e : ErrCode) (op : Nibble) : (s.noteError e op).hIn = s.hIn := rfl
@[simp] theorem State.noteError_rIn (e : ErrCode) (op : Nibble) : (s.noteError e op).rIn = s.rIn := rfl
@[simp] theorem State.noteError_hOut (e : ErrCode) (op : Nibble) : (s.noteError e op).hOut = s.hOut := rfl
@[simp] theorem State.noteError_rOut (e : ErrCode) (op : Nibble) : (s.noteError e op).rOut = s.rOut := rfl
@[simp] theorem State.noteError_port (e : ErrCode) (op : Nibble) : (s.noteError e op).port = s.port := rfl
@[simp] theorem State.noteError_sideband (e : ErrCode) (op : Nibble) : (s.noteError e op).sideband = s.sideband := rfl
@[simp] theorem State.noteError_turns (e : ErrCode) (op : Nibble) : (s.noteError e op).turns = s.turns := rfl
@[simp] theorem State.noteError_epoch (e : ErrCode) (op : Nibble) : (s.noteError e op).epoch = s.epoch := rfl

/-! ## respond -/

@[simp] theorem State.respond_cfg (op code : Nibble) (w1 w2 : Word) : (s.respond op code w1 w2).cfg = s.cfg := rfl
@[simp] theorem State.respond_store (op code : Nibble) (w1 w2 : Word) : (s.respond op code w1 w2).store = s.store := rfl
@[simp] theorem State.respond_conf (op code : Nibble) (w1 w2 : Word) : (s.respond op code w1 w2).conf = s.conf := rfl
@[simp] theorem State.respond_len (op code : Nibble) (w1 w2 : Word) : (s.respond op code w1 w2).len = s.len := rfl
@[simp] theorem State.respond_loaded (op code : Nibble) (w1 w2 : Word) : (s.respond op code w1 w2).loaded = s.loaded := rfl
@[simp] theorem State.respond_debug (op code : Nibble) (w1 w2 : Word) : (s.respond op code w1 w2).debug = s.debug := rfl
@[simp] theorem State.respond_halted (op code : Nibble) (w1 w2 : Word) : (s.respond op code w1 w2).halted = s.halted := rfl
@[simp] theorem State.respond_errSeen (op code : Nibble) (w1 w2 : Word) : (s.respond op code w1 w2).errSeen = s.errSeen := rfl
@[simp] theorem State.respond_fcode (op code : Nibble) (w1 w2 : Word) : (s.respond op code w1 w2).fcode = s.fcode := rfl
@[simp] theorem State.respond_fop (op code : Nibble) (w1 w2 : Word) : (s.respond op code w1 w2).fop = s.fop := rfl
@[simp] theorem State.respond_strap (op code : Nibble) (w1 w2 : Word) : (s.respond op code w1 w2).strap = s.strap := rfl
@[simp] theorem State.respond_resetReq (op code : Nibble) (w1 w2 : Word) : (s.respond op code w1 w2).resetReq = s.resetReq := rfl
@[simp] theorem State.respond_hIn (op code : Nibble) (w1 w2 : Word) : (s.respond op code w1 w2).hIn = s.hIn := rfl
@[simp] theorem State.respond_rIn (op code : Nibble) (w1 w2 : Word) : (s.respond op code w1 w2).rIn = s.rIn := rfl
@[simp] theorem State.respond_hOut (op code : Nibble) (w1 w2 : Word) : (s.respond op code w1 w2).hOut = (if s.port = .H then s.hOut ++ [⟨responseHead op code, w1, w2⟩] else s.hOut) := rfl
@[simp] theorem State.respond_rOut (op code : Nibble) (w1 w2 : Word) : (s.respond op code w1 w2).rOut = (if s.port = .R then s.rOut ++ [⟨responseHead op code, w1, w2⟩] else s.rOut) := rfl
@[simp] theorem State.respond_port (op code : Nibble) (w1 w2 : Word) : (s.respond op code w1 w2).port = s.port := rfl
@[simp] theorem State.respond_sideband (op code : Nibble) (w1 w2 : Word) : (s.respond op code w1 w2).sideband = s.sideband := rfl
@[simp] theorem State.respond_turns (op code : Nibble) (w1 w2 : Word) : (s.respond op code w1 w2).turns = s.turns := rfl
@[simp] theorem State.respond_epoch (op code : Nibble) (w1 w2 : Word) : (s.respond op code w1 w2).epoch = s.epoch := rfl

/-! ## raise -/

@[simp] theorem State.raise_cfg (e : ErrCode) (op : Nibble) (ws : List Word) : (s.raise e op ws).cfg = s.cfg := rfl
@[simp] theorem State.raise_store (e : ErrCode) (op : Nibble) (ws : List Word) : (s.raise e op ws).store = s.store := rfl
@[simp] theorem State.raise_conf (e : ErrCode) (op : Nibble) (ws : List Word) : (s.raise e op ws).conf = s.conf := rfl
@[simp] theorem State.raise_len (e : ErrCode) (op : Nibble) (ws : List Word) : (s.raise e op ws).len = s.len := rfl
@[simp] theorem State.raise_loaded (e : ErrCode) (op : Nibble) (ws : List Word) : (s.raise e op ws).loaded = s.loaded := rfl
@[simp] theorem State.raise_debug (e : ErrCode) (op : Nibble) (ws : List Word) : (s.raise e op ws).debug = s.debug := rfl
@[simp] theorem State.raise_halted (e : ErrCode) (op : Nibble) (ws : List Word) : (s.raise e op ws).halted = (s.halted || s.debug) := rfl
@[simp] theorem State.raise_errSeen (e : ErrCode) (op : Nibble) (ws : List Word) : (s.raise e op ws).errSeen = true := rfl
@[simp] theorem State.raise_fcode (e : ErrCode) (op : Nibble) (ws : List Word) : (s.raise e op ws).fcode = (if s.errSeen then s.fcode else e.code) := rfl
@[simp] theorem State.raise_fop (e : ErrCode) (op : Nibble) (ws : List Word) : (s.raise e op ws).fop = (if s.errSeen then s.fop else op) := rfl
@[simp] theorem State.raise_strap (e : ErrCode) (op : Nibble) (ws : List Word) : (s.raise e op ws).strap = s.strap := rfl
@[simp] theorem State.raise_resetReq (e : ErrCode) (op : Nibble) (ws : List Word) : (s.raise e op ws).resetReq = s.resetReq := rfl
@[simp] theorem State.raise_hIn (e : ErrCode) (op : Nibble) (ws : List Word) : (s.raise e op ws).hIn = s.hIn := rfl
@[simp] theorem State.raise_rIn (e : ErrCode) (op : Nibble) (ws : List Word) : (s.raise e op ws).rIn = s.rIn := rfl
@[simp] theorem State.raise_hOut (e : ErrCode) (op : Nibble) (ws : List Word) : (s.raise e op ws).hOut = (if s.port = .H then s.hOut ++ [⟨responseHead op e.code, (s.errorPayload ws).extractLsb' 32 32, (s.errorPayload ws).extractLsb' 0 32⟩] else s.hOut) := rfl
@[simp] theorem State.raise_rOut (e : ErrCode) (op : Nibble) (ws : List Word) : (s.raise e op ws).rOut = (if s.port = .R then s.rOut ++ [⟨responseHead op e.code, (s.errorPayload ws).extractLsb' 32 32, (s.errorPayload ws).extractLsb' 0 32⟩] else s.rOut) := rfl
@[simp] theorem State.raise_port (e : ErrCode) (op : Nibble) (ws : List Word) : (s.raise e op ws).port = s.port := rfl
@[simp] theorem State.raise_sideband (e : ErrCode) (op : Nibble) (ws : List Word) : (s.raise e op ws).sideband = s.sideband := rfl
@[simp] theorem State.raise_turns (e : ErrCode) (op : Nibble) (ws : List Word) : (s.raise e op ws).turns = s.turns := rfl
@[simp] theorem State.raise_epoch (e : ErrCode) (op : Nibble) (ws : List Word) : (s.raise e op ws).epoch = s.epoch := rfl

/-! ## install -/

@[simp] theorem State.install_cfg (n : Nat) (data : List Word) : (s.install n data).cfg = s.cfg := rfl
@[simp] theorem State.install_store (n : Nat) (data : List Word) : (s.install n data).store = Cells.writeRun 0 (loadBits n data) s.store := rfl
@[simp] theorem State.install_conf (n : Nat) (data : List Word) : (s.install n data).conf = Cells.writeRun 0 (s.sideband.take n) s.conf := rfl
@[simp] theorem State.install_len (n : Nat) (data : List Word) : (s.install n data).len = n := rfl
@[simp] theorem State.install_loaded (n : Nat) (data : List Word) : (s.install n data).loaded = true := rfl
@[simp] theorem State.install_debug (n : Nat) (data : List Word) : (s.install n data).debug = s.debug := rfl
@[simp] theorem State.install_halted (n : Nat) (data : List Word) : (s.install n data).halted = s.halted := rfl
@[simp] theorem State.install_errSeen (n : Nat) (data : List Word) : (s.install n data).errSeen = s.errSeen := rfl
@[simp] theorem State.install_fcode (n : Nat) (data : List Word) : (s.install n data).fcode = s.fcode := rfl
@[simp] theorem State.install_fop (n : Nat) (data : List Word) : (s.install n data).fop = s.fop := rfl
@[simp] theorem State.install_strap (n : Nat) (data : List Word) : (s.install n data).strap = s.strap := rfl
@[simp] theorem State.install_resetReq (n : Nat) (data : List Word) : (s.install n data).resetReq = s.resetReq := rfl
@[simp] theorem State.install_hIn (n : Nat) (data : List Word) : (s.install n data).hIn = s.hIn := rfl
@[simp] theorem State.install_rIn (n : Nat) (data : List Word) : (s.install n data).rIn = s.rIn := rfl
@[simp] theorem State.install_hOut (n : Nat) (data : List Word) : (s.install n data).hOut = s.hOut := rfl
@[simp] theorem State.install_rOut (n : Nat) (data : List Word) : (s.install n data).rOut = s.rOut := rfl
@[simp] theorem State.install_port (n : Nat) (data : List Word) : (s.install n data).port = s.port := rfl
@[simp] theorem State.install_sideband (n : Nat) (data : List Word) : (s.install n data).sideband = s.sideband := rfl
@[simp] theorem State.install_turns (n : Nat) (data : List Word) : (s.install n data).turns = s.turns := rfl
@[simp] theorem State.install_epoch (n : Nat) (data : List Word) : (s.install n data).epoch = s.epoch := rfl

/-! ## drop -/

@[simp] theorem State.drop_cfg : (s.drop).cfg = s.cfg := rfl
@[simp] theorem State.drop_store : (s.drop).store = [] := rfl
@[simp] theorem State.drop_conf : (s.drop).conf = [] := rfl
@[simp] theorem State.drop_len : (s.drop).len = 0 := rfl
@[simp] theorem State.drop_loaded : (s.drop).loaded = false := rfl
@[simp] theorem State.drop_debug : (s.drop).debug = s.debug := rfl
@[simp] theorem State.drop_halted : (s.drop).halted = s.halted := rfl
@[simp] theorem State.drop_errSeen : (s.drop).errSeen = s.errSeen := rfl
@[simp] theorem State.drop_fcode : (s.drop).fcode = s.fcode := rfl
@[simp] theorem State.drop_fop : (s.drop).fop = s.fop := rfl
@[simp] theorem State.drop_strap : (s.drop).strap = s.strap := rfl
@[simp] theorem State.drop_resetReq : (s.drop).resetReq = s.resetReq := rfl
@[simp] theorem State.drop_hIn : (s.drop).hIn = s.hIn := rfl
@[simp] theorem State.drop_rIn : (s.drop).rIn = s.rIn := rfl
@[simp] theorem State.drop_hOut : (s.drop).hOut = s.hOut := rfl
@[simp] theorem State.drop_rOut : (s.drop).rOut = s.rOut := rfl
@[simp] theorem State.drop_port : (s.drop).port = s.port := rfl
@[simp] theorem State.drop_sideband : (s.drop).sideband = s.sideband := rfl
@[simp] theorem State.drop_turns : (s.drop).turns = s.turns := rfl
@[simp] theorem State.drop_epoch : (s.drop).epoch = s.epoch + 1 := rfl

/-! ## take -/

@[simp] theorem State.take_cfg (p : Port) (o : Offer) : (s.take p o).cfg = s.cfg := rfl
@[simp] theorem State.take_store (p : Port) (o : Offer) : (s.take p o).store = s.store := rfl
@[simp] theorem State.take_conf (p : Port) (o : Offer) : (s.take p o).conf = s.conf := rfl
@[simp] theorem State.take_len (p : Port) (o : Offer) : (s.take p o).len = s.len := rfl
@[simp] theorem State.take_loaded (p : Port) (o : Offer) : (s.take p o).loaded = s.loaded := rfl
@[simp] theorem State.take_debug (p : Port) (o : Offer) : (s.take p o).debug = s.debug := rfl
@[simp] theorem State.take_halted (p : Port) (o : Offer) : (s.take p o).halted = s.halted := rfl
@[simp] theorem State.take_errSeen (p : Port) (o : Offer) : (s.take p o).errSeen = s.errSeen := rfl
@[simp] theorem State.take_fcode (p : Port) (o : Offer) : (s.take p o).fcode = s.fcode := rfl
@[simp] theorem State.take_fop (p : Port) (o : Offer) : (s.take p o).fop = s.fop := rfl
@[simp] theorem State.take_strap (p : Port) (o : Offer) : (s.take p o).strap = s.strap := rfl
@[simp] theorem State.take_resetReq (p : Port) (o : Offer) : (s.take p o).resetReq = s.resetReq := rfl
@[simp] theorem State.take_hIn (p : Port) (o : Offer) : (s.take p o).hIn = (if p = .H then s.hIn.tail else s.hIn) := rfl
@[simp] theorem State.take_rIn (p : Port) (o : Offer) : (s.take p o).rIn = (if p = .R then s.rIn.tail else s.rIn) := rfl
@[simp] theorem State.take_hOut (p : Port) (o : Offer) : (s.take p o).hOut = s.hOut := rfl
@[simp] theorem State.take_rOut (p : Port) (o : Offer) : (s.take p o).rOut = s.rOut := rfl
@[simp] theorem State.take_port (p : Port) (o : Offer) : (s.take p o).port = p := rfl
@[simp] theorem State.take_sideband (p : Port) (o : Offer) : (s.take p o).sideband = o.confs := rfl
@[simp] theorem State.take_turns (p : Port) (o : Offer) : (s.take p o).turns = s.turns + 1 := rfl
@[simp] theorem State.take_epoch (p : Port) (o : Offer) : (s.take p o).epoch = s.epoch := rfl

/-! ## applyReset -/

@[simp] theorem State.applyReset_cfg : (s.applyReset).cfg = s.cfg := rfl
@[simp] theorem State.applyReset_store : (s.applyReset).store = [] := rfl
@[simp] theorem State.applyReset_conf : (s.applyReset).conf = [] := rfl
@[simp] theorem State.applyReset_len : (s.applyReset).len = 0 := rfl
@[simp] theorem State.applyReset_loaded : (s.applyReset).loaded = false := rfl
@[simp] theorem State.applyReset_debug : (s.applyReset).debug = s.strap := rfl
@[simp] theorem State.applyReset_halted : (s.applyReset).halted = false := rfl
@[simp] theorem State.applyReset_errSeen : (s.applyReset).errSeen = false := rfl
@[simp] theorem State.applyReset_fcode : (s.applyReset).fcode = 0 := rfl
@[simp] theorem State.applyReset_fop : (s.applyReset).fop = 0 := rfl
@[simp] theorem State.applyReset_strap : (s.applyReset).strap = s.strap := rfl
@[simp] theorem State.applyReset_resetReq : (s.applyReset).resetReq = false := rfl
@[simp] theorem State.applyReset_hIn : (s.applyReset).hIn = [] := rfl
@[simp] theorem State.applyReset_rIn : (s.applyReset).rIn = [] := rfl
@[simp] theorem State.applyReset_hOut : (s.applyReset).hOut = [] := rfl
@[simp] theorem State.applyReset_rOut : (s.applyReset).rOut = [] := rfl
@[simp] theorem State.applyReset_port : (s.applyReset).port = .H := rfl
@[simp] theorem State.applyReset_sideband : (s.applyReset).sideband = [] := rfl
@[simp] theorem State.applyReset_turns : (s.applyReset).turns = s.turns := rfl
@[simp] theorem State.applyReset_epoch : (s.applyReset).epoch = s.epoch + 1 := rfl

/-! ## offer -/

@[simp] theorem State.offer_cfg (p : Port) (o : Offer) : (s.offer p o).cfg = s.cfg := rfl
@[simp] theorem State.offer_store (p : Port) (o : Offer) : (s.offer p o).store = s.store := rfl
@[simp] theorem State.offer_conf (p : Port) (o : Offer) : (s.offer p o).conf = s.conf := rfl
@[simp] theorem State.offer_len (p : Port) (o : Offer) : (s.offer p o).len = s.len := rfl
@[simp] theorem State.offer_loaded (p : Port) (o : Offer) : (s.offer p o).loaded = s.loaded := rfl
@[simp] theorem State.offer_debug (p : Port) (o : Offer) : (s.offer p o).debug = s.debug := rfl
@[simp] theorem State.offer_halted (p : Port) (o : Offer) : (s.offer p o).halted = s.halted := rfl
@[simp] theorem State.offer_errSeen (p : Port) (o : Offer) : (s.offer p o).errSeen = s.errSeen := rfl
@[simp] theorem State.offer_fcode (p : Port) (o : Offer) : (s.offer p o).fcode = s.fcode := rfl
@[simp] theorem State.offer_fop (p : Port) (o : Offer) : (s.offer p o).fop = s.fop := rfl
@[simp] theorem State.offer_strap (p : Port) (o : Offer) : (s.offer p o).strap = s.strap := rfl
@[simp] theorem State.offer_resetReq (p : Port) (o : Offer) : (s.offer p o).resetReq = s.resetReq := rfl
@[simp] theorem State.offer_hIn (p : Port) (o : Offer) : (s.offer p o).hIn = (if p = .H then s.hIn ++ [o] else s.hIn) := rfl
@[simp] theorem State.offer_rIn (p : Port) (o : Offer) : (s.offer p o).rIn = (if p = .R then s.rIn ++ [o] else s.rIn) := rfl
@[simp] theorem State.offer_hOut (p : Port) (o : Offer) : (s.offer p o).hOut = s.hOut := rfl
@[simp] theorem State.offer_rOut (p : Port) (o : Offer) : (s.offer p o).rOut = s.rOut := rfl
@[simp] theorem State.offer_port (p : Port) (o : Offer) : (s.offer p o).port = s.port := rfl
@[simp] theorem State.offer_sideband (p : Port) (o : Offer) : (s.offer p o).sideband = s.sideband := rfl
@[simp] theorem State.offer_turns (p : Port) (o : Offer) : (s.offer p o).turns = s.turns := rfl
@[simp] theorem State.offer_epoch (p : Port) (o : Offer) : (s.offer p o).epoch = s.epoch := rfl

/-! ## assertReset -/

@[simp] theorem State.assertReset_cfg : (s.assertReset).cfg = s.cfg := rfl
@[simp] theorem State.assertReset_store : (s.assertReset).store = s.store := rfl
@[simp] theorem State.assertReset_conf : (s.assertReset).conf = s.conf := rfl
@[simp] theorem State.assertReset_len : (s.assertReset).len = s.len := rfl
@[simp] theorem State.assertReset_loaded : (s.assertReset).loaded = s.loaded := rfl
@[simp] theorem State.assertReset_debug : (s.assertReset).debug = s.debug := rfl
@[simp] theorem State.assertReset_halted : (s.assertReset).halted = s.halted := rfl
@[simp] theorem State.assertReset_errSeen : (s.assertReset).errSeen = s.errSeen := rfl
@[simp] theorem State.assertReset_fcode : (s.assertReset).fcode = s.fcode := rfl
@[simp] theorem State.assertReset_fop : (s.assertReset).fop = s.fop := rfl
@[simp] theorem State.assertReset_strap : (s.assertReset).strap = s.strap := rfl
@[simp] theorem State.assertReset_resetReq : (s.assertReset).resetReq = true := rfl
@[simp] theorem State.assertReset_hIn : (s.assertReset).hIn = s.hIn := rfl
@[simp] theorem State.assertReset_rIn : (s.assertReset).rIn = s.rIn := rfl
@[simp] theorem State.assertReset_hOut : (s.assertReset).hOut = s.hOut := rfl
@[simp] theorem State.assertReset_rOut : (s.assertReset).rOut = s.rOut := rfl
@[simp] theorem State.assertReset_port : (s.assertReset).port = s.port := rfl
@[simp] theorem State.assertReset_sideband : (s.assertReset).sideband = s.sideband := rfl
@[simp] theorem State.assertReset_turns : (s.assertReset).turns = s.turns := rfl
@[simp] theorem State.assertReset_epoch : (s.assertReset).epoch = s.epoch := rfl

/-! ## setStrap -/

@[simp] theorem State.setStrap_cfg (b : Bool) : (s.setStrap b).cfg = s.cfg := rfl
@[simp] theorem State.setStrap_store (b : Bool) : (s.setStrap b).store = s.store := rfl
@[simp] theorem State.setStrap_conf (b : Bool) : (s.setStrap b).conf = s.conf := rfl
@[simp] theorem State.setStrap_len (b : Bool) : (s.setStrap b).len = s.len := rfl
@[simp] theorem State.setStrap_loaded (b : Bool) : (s.setStrap b).loaded = s.loaded := rfl
@[simp] theorem State.setStrap_debug (b : Bool) : (s.setStrap b).debug = s.debug := rfl
@[simp] theorem State.setStrap_halted (b : Bool) : (s.setStrap b).halted = s.halted := rfl
@[simp] theorem State.setStrap_errSeen (b : Bool) : (s.setStrap b).errSeen = s.errSeen := rfl
@[simp] theorem State.setStrap_fcode (b : Bool) : (s.setStrap b).fcode = s.fcode := rfl
@[simp] theorem State.setStrap_fop (b : Bool) : (s.setStrap b).fop = s.fop := rfl
@[simp] theorem State.setStrap_strap (b : Bool) : (s.setStrap b).strap = b := rfl
@[simp] theorem State.setStrap_resetReq (b : Bool) : (s.setStrap b).resetReq = s.resetReq := rfl
@[simp] theorem State.setStrap_hIn (b : Bool) : (s.setStrap b).hIn = s.hIn := rfl
@[simp] theorem State.setStrap_rIn (b : Bool) : (s.setStrap b).rIn = s.rIn := rfl
@[simp] theorem State.setStrap_hOut (b : Bool) : (s.setStrap b).hOut = s.hOut := rfl
@[simp] theorem State.setStrap_rOut (b : Bool) : (s.setStrap b).rOut = s.rOut := rfl
@[simp] theorem State.setStrap_port (b : Bool) : (s.setStrap b).port = s.port := rfl
@[simp] theorem State.setStrap_sideband (b : Bool) : (s.setStrap b).sideband = s.sideband := rfl
@[simp] theorem State.setStrap_turns (b : Bool) : (s.setStrap b).turns = s.turns := rfl
@[simp] theorem State.setStrap_epoch (b : Bool) : (s.setStrap b).epoch = s.epoch := rfl

/-! ## withFetchWord -/

@[simp] theorem State.withFetchWord_cfg (nbits w : Nat) : (s.withFetchWord nbits w).cfg = s.cfg := rfl
@[simp] theorem State.withFetchWord_store (nbits w : Nat) : (s.withFetchWord nbits w).store = s.store := rfl
@[simp] theorem State.withFetchWord_conf (nbits w : Nat) : (s.withFetchWord nbits w).conf = s.conf := rfl
@[simp] theorem State.withFetchWord_len (nbits w : Nat) : (s.withFetchWord nbits w).len = s.len := rfl
@[simp] theorem State.withFetchWord_loaded (nbits w : Nat) : (s.withFetchWord nbits w).loaded = s.loaded := rfl
@[simp] theorem State.withFetchWord_debug (nbits w : Nat) : (s.withFetchWord nbits w).debug = s.debug := rfl
@[simp] theorem State.withFetchWord_halted (nbits w : Nat) : (s.withFetchWord nbits w).halted = false := rfl
@[simp] theorem State.withFetchWord_errSeen (nbits w : Nat) : (s.withFetchWord nbits w).errSeen = s.errSeen := rfl
@[simp] theorem State.withFetchWord_fcode (nbits w : Nat) : (s.withFetchWord nbits w).fcode = s.fcode := rfl
@[simp] theorem State.withFetchWord_fop (nbits w : Nat) : (s.withFetchWord nbits w).fop = s.fop := rfl
@[simp] theorem State.withFetchWord_strap (nbits w : Nat) : (s.withFetchWord nbits w).strap = s.strap := rfl
@[simp] theorem State.withFetchWord_resetReq (nbits w : Nat) : (s.withFetchWord nbits w).resetReq = false := rfl
@[simp] theorem State.withFetchWord_hIn (nbits w : Nat) : (s.withFetchWord nbits w).hIn = ⟨tableWords nbits w, []⟩ :: s.hIn := rfl
@[simp] theorem State.withFetchWord_rIn (nbits w : Nat) : (s.withFetchWord nbits w).rIn = [] := rfl
@[simp] theorem State.withFetchWord_hOut (nbits w : Nat) : (s.withFetchWord nbits w).hOut = s.hOut := rfl
@[simp] theorem State.withFetchWord_rOut (nbits w : Nat) : (s.withFetchWord nbits w).rOut = s.rOut := rfl
@[simp] theorem State.withFetchWord_port (nbits w : Nat) : (s.withFetchWord nbits w).port = s.port := rfl
@[simp] theorem State.withFetchWord_sideband (nbits w : Nat) : (s.withFetchWord nbits w).sideband = s.sideband := rfl
@[simp] theorem State.withFetchWord_turns (nbits w : Nat) : (s.withFetchWord nbits w).turns = s.turns := rfl
@[simp] theorem State.withFetchWord_epoch (nbits w : Nat) : (s.withFetchWord nbits w).epoch = s.epoch := rfl

end Sys2Proof.Machine
end

