-- ==== Sys2Proof/Laws/Cells.lean ====
section
/-! SUPPORT. Reading cells after writing them, and the canonical form of the store: every memory operation keeps it. -/

namespace Sys2Proof.Machine

variable {α : Type}

@[simp] theorem Cells.read_nil (a : Nat) : Cells.read ([] : Cells α) a = none := rfl

theorem Cells.read_cons (k : Nat) (v : α) (m : Cells α) (a : Nat) :
    Cells.read ((k, v) :: m) a = if k = a then some v else Cells.read m a := rfl

/-- A cell is unlisted exactly when its address is no key. -/
theorem Cells.read_eq_none_iff (m : Cells α) (a : Nat) : Cells.read m a = none ↔ a ∉ m.map Prod.fst := by
  induction m with
  | nil => simp
  | cons c m ih =>
    obtain ⟨k, v⟩ := c
    rw [Cells.read_cons, List.map_cons, List.mem_cons, not_or]
    by_cases h : k = a
    · simp [h]
    · rw [if_neg h, ih]
      exact ⟨fun hm => ⟨fun e => h e.symm, hm⟩, fun hm => hm.2⟩

/-- Reading past a part that does not list the address. -/
theorem Cells.read_append (m m' : Cells α) (a : Nat) :
    Cells.read (m ++ m') a = (Cells.read m a).or (Cells.read m' a) := by
  induction m with
  | nil => simp
  | cons c m ih =>
    obtain ⟨k, v⟩ := c
    rw [List.cons_append, Cells.read_cons, Cells.read_cons, ih]
    by_cases h : k = a <;> simp [h]

/-- A filter on addresses hides the cells it drops and leaves the others. -/
theorem Cells.read_filter (p : Nat → Bool) (m : Cells α) (a : Nat) :
    Cells.read (m.filter fun c => p c.1) a = if p a then Cells.read m a else none := by
  induction m with
  | nil => simp
  | cons c m ih =>
    obtain ⟨k, v⟩ := c
    by_cases hk : k = a
    · subst hk
      by_cases hp : p k <;> simp [Cells.read_cons, hp, ih]
    · by_cases hp : p k <;> simp [Cells.read_cons, hp, hk, ih]

/-- A run holds its values at consecutive addresses and nothing else. -/
theorem Cells.read_runFrom (a : Nat) (vs : List α) (b : Nat) :
    Cells.read (Cells.runFrom a vs) b = if a ≤ b then vs[b - a]? else none := by
  induction vs generalizing a with
  | nil => simp [Cells.runFrom]
  | cons v vs ih =>
    rw [Cells.runFrom, Cells.read_cons, ih]
    by_cases h : a = b
    · subst h; simp
    · by_cases hlt : a + 1 ≤ b
      · rw [if_neg h, if_pos hlt, if_pos (by omega), show b - a = (b - (a + 1)) + 1 by omega, List.getElem?_cons_succ]
      · rw [if_neg h, if_neg hlt, if_neg (by omega)]

/-- Read after write: inside the run the value written, elsewhere what was there before. -/
theorem Cells.read_writeRun (a : Nat) (vs : List α) (m : Cells α) (b : Nat) :
    Cells.read (Cells.writeRun a vs m) b = if a ≤ b ∧ b < a + vs.length then vs[b - a]? else Cells.read m b := by
  unfold Cells.writeRun
  rw [Cells.read_append, Cells.read_append, Cells.read_filter (fun k => decide (k < a)), Cells.read_runFrom,
    Cells.read_filter (fun k => decide (a + vs.length ≤ k))]
  by_cases h1 : b < a
  · simp [h1, show ¬ a ≤ b by omega, show ¬ a + vs.length ≤ b by omega]
  · by_cases h2 : b < a + vs.length
    · simp [h1, h2, show a ≤ b by omega, show ¬ a + vs.length ≤ b by omega]
    · have : vs[b - a]? = none := List.getElem?_eq_none (by omega)
      simp [h1, h2, this, show a + vs.length ≤ b by omega]

theorem Cells.runFrom_keys (a : Nat) (vs : List α) :
    (Cells.runFrom a vs).map Prod.fst = (List.range vs.length).map (a + ·) := by
  induction vs generalizing a with
  | nil => rfl
  | cons v vs ih =>
    rw [Cells.runFrom, List.map_cons, ih, List.length_cons, List.range_succ_eq_map, List.map_cons, List.map_map]
    congr 1
    refine List.map_congr_left fun k _ => ?_
    simp only [Function.comp_apply]
    omega

/-- The canonical form, said with `Pairwise`. -/
theorem Cells.wf_iff (m : Cells α) : Cells.wf m = true ↔ (m.map Prod.fst).Pairwise (· < ·) :=
  strictlyAscending_iff _

@[simp] theorem Cells.wf_nil : Cells.wf ([] : Cells α) = true := rfl

/-- Writing a run keeps the canonical form. -/
theorem Cells.wf_writeRun (a : Nat) (vs : List α) (m : Cells α) (h : Cells.wf m = true) :
    Cells.wf (Cells.writeRun a vs m) = true := by
  have hsub : ∀ p : Nat × α → Bool, ((m.filter p).map Prod.fst).Pairwise (· < ·) := fun p =>
    ((Cells.wf_iff m).mp h).sublist (List.filter_sublist.map _)
  rw [Cells.wf_iff, Cells.writeRun, List.map_append, List.map_append, List.pairwise_append, List.pairwise_append,
    Cells.runFrom_keys]
  refine ⟨⟨hsub _, ?_, ?_⟩, hsub _, ?_⟩
  · rw [List.pairwise_map]
    exact (List.pairwise_lt_range).imp fun h => by omega
  · intro x hx y hy
    simp only [List.mem_map, List.mem_filter, decide_eq_true_eq, List.mem_range] at hx hy
    obtain ⟨c, ⟨_, hc⟩, rfl⟩ := hx
    obtain ⟨k, _, rfl⟩ := hy
    omega
  · intro x hx y hy
    simp only [List.mem_append, List.mem_map, List.mem_filter, decide_eq_true_eq, List.mem_range] at hx hy
    obtain ⟨c, ⟨_, hc⟩, rfl⟩ := hy
    rcases hx with ⟨d, ⟨_, hd⟩, rfl⟩ | ⟨k, hk, rfl⟩ <;> omega

/-- `MemWrite` keeps the canonical form of the store. -/
theorem Memory.wf_memWrite (addr n v : Nat) (m : Memory) (h : Memory.wf m = true) :
    Memory.wf (Memory.memWrite addr n v m) = true :=
  Cells.wf_writeRun _ _ _ h

/-- What `MemWrite` stores, bit by bit (R8). -/
theorem Memory.read_memWrite (addr n v : Nat) (m : Memory) (a : Nat) :
    Cells.read (Memory.memWrite addr n v m) a
      = if addr ≤ a ∧ a < addr + n then some (v.testBit (n - 1 - (a - addr))) else Cells.read m a := by
  rw [Memory.memWrite, Cells.read_writeRun]
  simp only [unpackBits, List.length_map, List.length_range]
  split
  · rename_i h
    simp [show a - addr < n by omega]
  · rfl

/-- The bits a LOAD stores (R151, R45). -/
theorem loadBits_getElem? (n : Nat) (data : List Word) (k : Nat) (h : k < n) :
    (loadBits n data)[k]? = some ((data.getD (k / 32) 0).getLsbD (31 - k % 32)) := by
  simp [loadBits, h]

/-- LOAD keeps the canonical form of the store. -/
theorem Memory.wf_install (s : State) (n : Nat) (data : List Word) (h : Memory.wf s.store = true) :
    Memory.wf (s.install n data).store = true :=
  Cells.wf_writeRun _ _ _ h

/-- DISCARD leaves a store in the canonical form. -/
theorem Memory.wf_drop (s : State) : Memory.wf s.drop.store = true := rfl

/-- Reset leaves a store in the canonical form. -/
theorem Memory.wf_applyReset (s : State) : Memory.wf s.applyReset.store = true := rfl

/-- The store after reset is in the canonical form. -/
theorem Memory.wf_reset : Memory.wf State.reset.store = true := rfl

/-- Two stores in the canonical form that read the same everywhere are the same list. -/
theorem Cells.ext_of_read {m m' : Cells α} (h : Cells.wf m = true) (h' : Cells.wf m' = true)
    (hr : ∀ a, Cells.read m a = Cells.read m' a) : m = m' := by
  rw [Cells.wf_iff] at h h'
  induction m generalizing m' with
  | nil =>
    cases m' with
    | nil => rfl
    | cons c m' =>
      obtain ⟨k, v⟩ := c
      simpa [Cells.read_cons] using hr k
  | cons c m ih =>
    obtain ⟨k, v⟩ := c
    cases m' with
    | nil => simpa [Cells.read_cons] using hr k
    | cons c' m' =>
      obtain ⟨k', v'⟩ := c'
      rw [List.map_cons] at h h'
      have hk : ∀ a ∈ m.map Prod.fst, k < a := fun a ha => List.rel_of_pairwise_cons h ha
      have hk' : ∀ a ∈ m'.map Prod.fst, k' < a := fun a ha => List.rel_of_pairwise_cons h' ha
      have hnone : ∀ a, a ≤ k → Cells.read m a = none := fun a ha =>
        (Cells.read_eq_none_iff m a).mpr fun hm => by have := hk a hm; omega
      have hnone' : ∀ a, a ≤ k' → Cells.read m' a = none := fun a ha =>
        (Cells.read_eq_none_iff m' a).mpr fun hm => by have := hk' a hm; omega
      have e : k = k' := by
        rcases Nat.lt_trichotomy k k' with hlt | he | hgt
        · have := hr k
          rw [Cells.read_cons, Cells.read_cons, if_pos rfl, if_neg (by omega), hnone' k (by omega)] at this
          cases this
        · exact he
        · have := hr k'
          rw [Cells.read_cons, Cells.read_cons, if_pos rfl, if_neg (by omega), hnone k' (by omega)] at this
          cases this
      subst e
      have ev : v = v' := by
        have := hr k
        rw [Cells.read_cons, Cells.read_cons, if_pos rfl, if_pos rfl] at this
        exact Option.some.inj this
      subst ev
      congr 1
      refine ih h.tail h'.tail fun a => ?_
      by_cases ha : a = k
      · subst ha; rw [hnone a le_rfl, hnone' a le_rfl]
      · have := hr a
        rwa [Cells.read_cons, Cells.read_cons, if_neg (fun e => ha e.symm), if_neg (fun e => ha e.symm)] at this

end Sys2Proof.Machine
end

