-- ==== Sys2Proof/Laws/Decode.lean ====
section
/-! SUPPORT. The decoder, one lemma per operation code (R76): what it answers for a packet of the right length. -/

namespace Sys2Proof

variable {w0 : Word} (w1 w2 : Word) (ext : List Word)

theorem decodeFields_reservedField (h : rsvOf w0 ≠ 0#4) : decodeFields w0 w1 w2 ext = .error .reservedField := by
  rw [decodeFields, if_pos h]

theorem decodeFields_get (hr : rsvOf w0 = 0#4) (ho : opOf w0 = 0x1#4) : decodeFields w0 w1 w2 ext =
    if countOf w0 = 0#8 ∧ w2 = 0#32 then .ok (.get (viewOf w1) (loHalf w0)) else .error .mustBeZero := by
  rw [decodeFields, if_neg (not_not.mpr hr), if_pos ho]

theorem decodeFields_getint (hr : rsvOf w0 = 0#4) (ho : opOf w0 = 0x2#4) : decodeFields w0 w1 w2 ext =
    if countOf w0 = 0#8 then .ok (.getint (viewOf w1) (loHalf w0) (hiHalf w2) (loHalf w2)) else .error .mustBeZero := by
  rw [decodeFields, if_neg (not_not.mpr hr), if_neg (by rw [ho]; decide), if_pos ho]

theorem decodeFields_getlong (hr : rsvOf w0 = 0#4) (ho : opOf w0 = 0x3#4) : decodeFields w0 w1 w2 ext =
    if countOf w0 = 0#8 then .ok (.getlong (viewOf w1) (loHalf w0) (hiHalf w2) (loHalf w2)) else .error .mustBeZero := by
  rw [decodeFields, if_neg (not_not.mpr hr), if_neg (by rw [ho]; decide), if_neg (by rw [ho]; decide), if_pos ho]

theorem decodeFields_getintx (hr : rsvOf w0 = 0#4) (ho : opOf w0 = 0x4#4) : decodeFields w0 w1 w2 ext =
    if w2 = 0#32 then (listOperand (countOf w0).toNat ext).map (.getintx (viewOf w1) (loHalf w0)) else .error .mustBeZero := by
  rw [decodeFields, if_neg (not_not.mpr hr), if_neg (by rw [ho]; decide), if_neg (by rw [ho]; decide),
    if_neg (by rw [ho]; decide), if_pos ho]

theorem decodeFields_getlongx (hr : rsvOf w0 = 0#4) (ho : opOf w0 = 0x5#4) : decodeFields w0 w1 w2 ext =
    if w2 = 0#32 then (listOperand (countOf w0).toNat ext).map (.getlongx (viewOf w1) (loHalf w0)) else .error .mustBeZero := by
  rw [decodeFields, if_neg (not_not.mpr hr), if_neg (by rw [ho]; decide), if_neg (by rw [ho]; decide),
    if_neg (by rw [ho]; decide), if_neg (by rw [ho]; decide), if_pos ho]

theorem decodeFields_subbuf (hr : rsvOf w0 = 0#4) (ho : opOf w0 = 0x6#4) : decodeFields w0 w1 w2 ext =
    if countOf w0 = 0#8 ∧ loHalf w0 = 0#16 then .ok (.subbuf (viewOf w1) (hiHalf w2) (loHalf w2)) else .error .mustBeZero := by
  rw [decodeFields, if_neg (not_not.mpr hr), if_neg (by rw [ho]; decide), if_neg (by rw [ho]; decide),
    if_neg (by rw [ho]; decide), if_neg (by rw [ho]; decide), if_neg (by rw [ho]; decide), if_pos ho]

theorem decodeFields_getlen (hr : rsvOf w0 = 0#4) (ho : opOf w0 = 0x7#4) : decodeFields w0 w1 w2 ext =
    if countOf w0 = 0#8 ∧ w2 = 0#32 then .ok (.getlen (viewOf w1) (loHalf w0)) else .error .mustBeZero := by
  rw [decodeFields, if_neg (not_not.mpr hr), if_neg (by rw [ho]; decide), if_neg (by rw [ho]; decide),
    if_neg (by rw [ho]; decide), if_neg (by rw [ho]; decide), if_neg (by rw [ho]; decide), if_neg (by rw [ho]; decide),
    if_pos ho]

theorem decodeFields_load (hr : rsvOf w0 = 0#4) (ho : opOf w0 = 0x8#4) : decodeFields w0 w1 w2 ext =
    if countOf w0 = 0#8 ∧ w1 = 0#32 ∧ w2 = 0#32 then .ok (.load (loHalf w0) ext) else .error .mustBeZero := by
  rw [decodeFields, if_neg (not_not.mpr hr), if_neg (by rw [ho]; decide), if_neg (by rw [ho]; decide),
    if_neg (by rw [ho]; decide), if_neg (by rw [ho]; decide), if_neg (by rw [ho]; decide), if_neg (by rw [ho]; decide),
    if_neg (by rw [ho]; decide), if_pos ho]

theorem decodeFields_discard (hr : rsvOf w0 = 0#4) (ho : opOf w0 = 0x9#4) : decodeFields w0 w1 w2 ext =
    if countOf w0 = 0#8 ∧ loHalf w0 = 0#16 ∧ w1 = 0#32 ∧ w2 = 0#32 then .ok .discard else .error .mustBeZero := by
  rw [decodeFields, if_neg (not_not.mpr hr), if_neg (by rw [ho]; decide), if_neg (by rw [ho]; decide),
    if_neg (by rw [ho]; decide), if_neg (by rw [ho]; decide), if_neg (by rw [ho]; decide), if_neg (by rw [ho]; decide),
    if_neg (by rw [ho]; decide), if_neg (by rw [ho]; decide), if_pos ho]

theorem decodeFields_reservedOp (hr : rsvOf w0 = 0#4) (ho : opOf w0 = 0#4 ∨ 10 ≤ (opOf w0).toNat) :
    decodeFields w0 w1 w2 ext = .error .reservedOp := by
  have hne : ∀ c : Nibble, 1 ≤ c.toNat → c.toNat ≤ 9 → opOf w0 ≠ c := by
    rintro c h1 h9 rfl
    rcases ho with ho | ho
    · rw [ho] at h1; exact absurd h1 (by decide)
    · omega
  rw [decodeFields, if_neg (not_not.mpr hr), if_neg (hne _ (by decide) (by decide)), if_neg (hne _ (by decide) (by decide)),
    if_neg (hne _ (by decide) (by decide)), if_neg (hne _ (by decide) (by decide)), if_neg (hne _ (by decide) (by decide)),
    if_neg (hne _ (by decide) (by decide)), if_neg (hne _ (by decide) (by decide)), if_neg (hne _ (by decide) (by decide)),
    if_neg (hne _ (by decide) (by decide))]

/-- The sixteen operation codes: nine commands and the reserved ones (R75). -/
theorem op_cases (c : Nibble) : c = 0x1#4 ∨ c = 0x2#4 ∨ c = 0x3#4 ∨ c = 0x4#4 ∨ c = 0x5#4 ∨ c = 0x6#4 ∨ c = 0x7#4
    ∨ c = 0x8#4 ∨ c = 0x9#4 ∨ (c = 0#4 ∨ 10 ≤ c.toNat) := by
  revert c; decide

/-- A packet of the right length. -/
theorem decode_of_length {ext : List Word} (h : ext.length + 3 = expectedWords w0) :
    decode (w0 :: w1 :: w2 :: ext) = decodeFields w0 w1 w2 ext := by
  rw [decode, if_pos h]

/-- The number of words of a packet with a given header (R76). -/
theorem expectedWords_headerWord (op : Nibble) (n : BitVec 8) (a : Half) :
    expectedWords (headerWord op n a) = if op = 4#4 ∨ op = 5#4 then 3 + listWordCount n.toNat
      else if op = 8#4 then 3 + dataWordCount a.toNat else 3 := by
  simp only [expectedWords, opOf_headerWord, countOf_headerWord, loHalf_headerWord]

end Sys2Proof
end

