-- ==== Sys2Proof/Laws/Operands.lean ====
section
/-! SUPPORT. One lemma per shared operation that says what it answers: prologue, descriptor resolution, extraction, and the
end of every command. -/

namespace Sys2Proof.Machine

variable {s : State} {v : View}

/-! ## Prologue (R91) -/

theorem State.prologue_ok (h : s.Ready v) : s.prologue v = .ok () := by
  simp [State.prologue, State.viewValid, h.1, h.2]

theorem State.prologue_nobuf (h : s.loaded = false) : s.prologue v = .error .nobuf := by
  simp [State.prologue, h]

theorem State.prologue_badview (hl : s.loaded = true) (h : s.len < v.vbase.toNat + v.vlen.toNat) :
    s.prologue v = .error .badview := by
  simp [State.prologue, State.viewValid, hl, h]

/-- Everything the prologue can answer. -/
theorem State.prologue_cases (s : State) (v : View) :
    (s.Ready v ∧ s.prologue v = .ok ()) ∨ (s.loaded = false ∧ s.prologue v = .error .nobuf)
      ∨ (s.loaded = true ∧ s.len < v.vbase.toNat + v.vlen.toNat ∧ s.prologue v = .error .badview) := by
  cases hl : s.loaded with
  | false => exact .inr (.inl ⟨rfl, State.prologue_nobuf hl⟩)
  | true =>
    by_cases hv : v.vbase.toNat + v.vlen.toNat ≤ s.len
    · exact .inl ⟨⟨hl, hv⟩, State.prologue_ok ⟨hl, hv⟩⟩
    · exact .inr (.inr ⟨rfl, by omega, State.prologue_badview hl (by omega)⟩)

/-! ## Descriptors (R92, R93) -/

theorem resolveContig_ok {b st l m : Nat} (h1 : 1 ≤ l) (h2 : l ≤ m) :
    resolveContig b st l m = .ok ((List.range l).map fun k => b + st + k) := by
  rw [resolveContig, if_neg (by omega)]

theorem resolveContig_baddesc {b st l m : Nat} (h : l = 0 ∨ m < l) : resolveContig b st l m = .error .baddesc := by
  rw [resolveContig, if_pos h]

theorem resolveList_ok {b m : Nat} {ds : List Nat} (h1 : ds ≠ []) (h2 : ds.length ≤ m) (h3 : ds.Pairwise (· < ·)) :
    resolveList b ds m = .ok (ds.map fun d => b + d) := by
  have h0 : ds.length ≠ 0 := fun h => h1 (List.length_eq_zero_iff.mp h)
  rw [resolveList, if_neg (by omega), if_neg]
  rw [(strictlyAscending_iff ds).mpr h3]
  decide

theorem resolveList_baddesc {b m : Nat} {ds : List Nat} (h : ds = [] ∨ m < ds.length ∨ ¬ ds.Pairwise (· < ·)) :
    resolveList b ds m = .error .baddesc := by
  unfold resolveList
  by_cases h0 : ds.length = 0 ∨ m < ds.length
  · rw [if_pos h0]
  · rw [if_neg h0, if_pos]
    have hn : ¬ ds.Pairwise (· < ·) := by
      rcases h with h | h | h
      · exact absurd (.inl (by simp [h])) h0
      · exact absurd (.inr h) h0
      · exact h
    simpa using mt (strictlyAscending_iff ds).mp hn

/-! ## Extraction (R95) -/

theorem State.extract_ok {w : Nat} {idx : List Nat} (h : ∀ i ∈ idx, i < v.vlen.toNat) :
    s.extract w v idx = .ok (BitVec.ofNat w (packBits (idx.map fun i => s.bit (v.vbase.toNat + i)))) := by
  rw [State.extract, if_neg]
  simp only [List.any_eq_true, decide_eq_true_eq, not_exists, not_and]
  intro i hi
  have := h i hi
  omega

theorem State.extract_oob {w : Nat} {idx : List Nat} (h : ∃ i ∈ idx, v.vlen.toNat ≤ i) :
    s.extract w v idx = .error .oob := by
  rw [State.extract, if_pos]
  simpa using h

/-- Everything extraction can answer. -/
theorem State.extract_cases (s : State) (w : Nat) (v : View) (idx : List Nat) :
    ((∀ i ∈ idx, i < v.vlen.toNat)
        ∧ s.extract w v idx = .ok (BitVec.ofNat w (packBits (idx.map fun i => s.bit (v.vbase.toNat + i)))))
      ∨ ((∃ i ∈ idx, v.vlen.toNat ≤ i) ∧ s.extract w v idx = .error .oob) := by
  by_cases h : ∀ i ∈ idx, i < v.vlen.toNat
  · exact .inl ⟨h, State.extract_ok h⟩
  · have h' : ∃ i ∈ idx, v.vlen.toNat ≤ i := by
      push Not at h
      exact h
    exact .inr ⟨h', State.extract_oob h'⟩

/-- Past the prologue a field command resolves its descriptor and extracts. -/
theorem State.field_ready {w : Nat} (h : s.Ready v) (idx : Except ErrCode (List Nat)) :
    s.field w v idx = idx.bind (s.extract w v) := by
  cases idx <;> simp [State.field, State.prologue_ok h, bind, Except.bind]

/-! ## Fields (R98 to R101) -/

/-- A list mapped is its indices mapped. -/
theorem map_eq_range_map {α : Type} (f : Nat → α) (ds : List Nat) :
    ds.map f = (List.range ds.length).map fun k => f (ds.getD k 0) := by
  apply List.ext_getElem
  · simp
  · intro i h _
    rw [List.length_map] at h
    simp [h]

/-- A contiguous field in bounds is the number its bits spell. -/
theorem State.field_contig_ok {b st l m : Nat} (w : Nat) (hv : s.Ready v) (h1 : 1 ≤ l) (h2 : l ≤ m)
    (h3 : b + st + l ≤ v.vlen.toNat) :
    s.field w v (resolveContig b st l m)
      = .ok (BitVec.ofNat w (s.fieldValue l fun k => v.vbase.toNat + (b + st + k))) := by
  rw [State.field_ready hv, resolveContig_ok h1 h2]
  show s.extract w v _ = _
  rw [State.extract_ok, List.map_map, State.fieldValue, ← packBits_range]
  · rfl
  · intro i hi
    simp only [List.mem_map, List.mem_range] at hi
    obtain ⟨k, hk, rfl⟩ := hi
    omega

theorem State.field_contig_oob {b st l m : Nat} (w : Nat) (hv : s.Ready v) (h1 : 1 ≤ l) (h2 : l ≤ m)
    (h3 : v.vlen.toNat < b + st + l) : s.field w v (resolveContig b st l m) = .error .oob := by
  rw [State.field_ready hv, resolveContig_ok h1 h2]
  exact State.extract_oob ⟨b + st + (l - 1), List.mem_map.mpr ⟨l - 1, List.mem_range.mpr (by omega), rfl⟩, by omega⟩

/-- A listed field in bounds is the number its bits spell, the first listed most significant. -/
theorem State.field_list_ok {b m : Nat} {ds : List Nat} (w : Nat) (hv : s.Ready v) (h1 : ds ≠ []) (h2 : ds.length ≤ m)
    (hp : ds.Pairwise (· < ·)) (h3 : ∀ d ∈ ds, b + d < v.vlen.toNat) :
    s.field w v (resolveList b ds m)
      = .ok (BitVec.ofNat w (s.fieldValue ds.length fun k => v.vbase.toNat + (b + ds.getD k 0))) := by
  rw [State.field_ready hv, resolveList_ok h1 h2 hp]
  show s.extract w v _ = _
  rw [State.extract_ok, List.map_map, map_eq_range_map, packBits_range]
  · rfl
  · intro i hi
    simp only [List.mem_map] at hi
    obtain ⟨d, hd, rfl⟩ := hi
    exact h3 d hd

theorem State.field_list_oob {b m : Nat} {ds : List Nat} (w : Nat) (hv : s.Ready v) (h1 : ds ≠ []) (h2 : ds.length ≤ m)
    (hp : ds.Pairwise (· < ·)) (h3 : ∃ d ∈ ds, v.vlen.toNat ≤ b + d) :
    s.field w v (resolveList b ds m) = .error .oob := by
  rw [State.field_ready hv, resolveList_ok h1 h2 hp]
  obtain ⟨d, hd, h⟩ := h3
  exact State.extract_oob ⟨b + d, List.mem_map.mpr ⟨d, hd, rfl⟩, h⟩

/-! ## The end of a command (R78, R166, R167) -/

theorem State.answer_ok (i : Instr) (p : Word × Word) (s : State) :
    s.answer i (.ok p) = s.respond i.op 0 p.1 p.2 := rfl

theorem State.answer_error (i : Instr) (e : ErrCode) (s : State) :
    s.answer i (.error e) = s.raise e i.op (encode i) := rfl

theorem State.respond_sends (s : State) (op code : Nibble) (w1 w2 : Word) :
    s.Sends (s.respond op code w1 w2) ⟨responseHead op code, w1, w2⟩ := ⟨rfl, rfl⟩

theorem State.respond_sameData (s : State) (op code : Nibble) (w1 w2 : Word) :
    s.SameData (s.respond op code w1 w2) :=
  ⟨rfl, rfl, rfl, rfl, rfl, rfl, rfl, rfl, rfl, rfl, rfl, rfl, rfl, rfl⟩

theorem State.respond_sameFlags (s : State) (op code : Nibble) (w1 w2 : Word) :
    s.SameFlags (s.respond op code w1 w2) := ⟨rfl, rfl, rfl, rfl⟩

theorem State.raise_sends (s : State) (e : ErrCode) (op : Nibble) (ws : List Word) :
    s.Sends (s.raise e op ws)
      ⟨responseHead op e.code, (s.errorPayload ws).extractLsb' 32 32, (s.errorPayload ws).extractLsb' 0 32⟩ := ⟨rfl, rfl⟩

theorem State.raise_sameData (s : State) (e : ErrCode) (op : Nibble) (ws : List Word) :
    s.SameData (s.raise e op ws) :=
  ⟨rfl, rfl, rfl, rfl, rfl, rfl, rfl, rfl, rfl, rfl, rfl, rfl, rfl, rfl⟩

/-- A requester command ends in `answer`: nothing it does is anything but a response or error entry. -/
theorem exec_requester (i : Instr) (h : i.view = some v) (s : State) :
    ∃ r, exec i s = .next (s.answer i r) := by
  cases i <;> first | exact ⟨_, rfl⟩ | cases h

end Sys2Proof.Machine
end

