-- ==== Sys2Proof/Laws/Lengths.lean ====
section
/-! SUPPORT. What the parts of GETLEN answer: the opcode octet, the descriptors of table entries, the fields they name
(spec/42_length_resolver.md R131, R135). -/

namespace Sys2Proof

/-- Every entry of a configuration meets the structural conditions (R131). -/
theorem Cfg.kindOf_valid (c : Cfg) (opc : BitVec 8) : (c.kindOf opc).valid = true := by
  have h := c.ok
  simp only [Cfg.check, Bool.and_eq_true, List.all_eq_true] at h
  exact h.2 _ (by simp [Cfg.kindOf])

namespace Machine

variable {s : State} {v : View}

/-- A valid descriptor of a table entry never raises BADDESC, and names 1 to 16 indices (R131). -/
theorem resolveDesc_ok {fd : FieldDesc} (h : fd.valid 16 = true) (b : Nat) :
    resolveDesc b 16 fd = .ok (fd.indices.map (b + ·)) ∧ 1 ≤ fd.indices.length ∧ fd.indices.length ≤ 16 := by
  cases fd with
  | contig st l =>
    simp only [FieldDesc.valid, decide_eq_true_eq] at h
    refine ⟨?_, by simp [FieldDesc.indices, h.1], by simp [FieldDesc.indices, h.2.1]⟩
    rw [resolveDesc, resolveContig_ok h.1 h.2.1, FieldDesc.indices, List.map_map]
    exact congrArg _ (List.map_congr_left fun k _ => Nat.add_assoc _ _ _)
  | list ds =>
    simp only [FieldDesc.valid, Bool.and_eq_true, decide_eq_true_eq] at h
    obtain ⟨⟨⟨h1, h2⟩, ha⟩, _⟩ := h
    refine ⟨?_, h1, h2⟩
    rw [resolveDesc, resolveList_ok (fun e => by simp [e] at h1) h2 ((strictlyAscending_iff ds).mp ha)]
    rfl

/-- A table field in the view is the number its bits spell. -/
theorem State.tableField_ok {b : Nat} {fd : FieldDesc} (h : fd.valid 16 = true)
    (hb : ∀ d ∈ fd.indices, b + d < v.vlen.toNat) :
    s.tableField v b fd
      = .ok (BitVec.ofNat 32 (s.fieldValue fd.indices.length fun k => v.vbase.toNat + (b + fd.indices.getD k 0))) := by
  simp only [State.tableField, (resolveDesc_ok h b).1, bind, Except.bind]
  rw [State.extract_ok, List.map_map, map_eq_range_map, packBits_range]
  · rfl
  · intro i hi
    simp only [List.mem_map] at hi
    obtain ⟨d, hd, rfl⟩ := hi
    exact hb d hd

theorem State.tableField_oob {b : Nat} {fd : FieldDesc} (h : fd.valid 16 = true)
    (hb : ∃ d ∈ fd.indices, v.vlen.toNat ≤ b + d) : s.tableField v b fd = .error .oob := by
  simp only [State.tableField, (resolveDesc_ok h b).1, bind, Except.bind]
  obtain ⟨d, hd, h'⟩ := hb
  exact State.extract_oob ⟨b + d, List.mem_map.mpr ⟨d, hd, rfl⟩, h'⟩

/-- The opcode octet, when it is in the view (R63). -/
theorem State.opcodeAt_ok {b : Nat} {opc : BitVec 8} (h : b + 8 ≤ v.vlen.toNat)
    (ho : opc.toNat = s.fieldValue 8 fun k => v.vbase.toNat + (b + k)) : s.opcodeAt v b = .ok opc := by
  have hx : s.extract 32 v ((List.range 8).map fun k => b + 0 + k) = .ok (BitVec.ofNat 32 opc.toNat) := by
    rw [State.extract_ok, ho, List.map_map, State.fieldValue, ← packBits_range]
    · rfl
    · intro i hi
      simp only [List.mem_map, List.mem_range] at hi
      obtain ⟨k, hk, rfl⟩ := hi
      omega
  have hc : resolveContig b 0 8 intMaxLen = .ok ((List.range 8).map fun k => b + 0 + k) :=
    resolveContig_ok (by omega) (by decide)
  simp only [State.opcodeAt, hc, bind, Except.bind, hx]
  congr 1
  have := opc.isLt
  apply BitVec.eq_of_toNat_eq
  simp only [BitVec.extractLsb'_toNat, BitVec.toNat_ofNat, Nat.shiftRight_zero]
  omega

theorem State.opcodeAt_oob {b : Nat} (h : v.vlen.toNat < b + 8) : s.opcodeAt v b = .error .oob := by
  have hc : resolveContig b 0 8 intMaxLen = .ok ((List.range 8).map fun k => b + 0 + k) :=
    resolveContig_ok (by omega) (by decide)
  have hx : s.extract 32 v ((List.range 8).map fun k => b + 0 + k) = .error .oob :=
    State.extract_oob ⟨b + 0 + 7, List.mem_map.mpr ⟨7, by decide, rfl⟩, by omega⟩
  simp only [State.opcodeAt, hc, bind, Except.bind, hx]

/-- An octet is the value of some opcode. -/
theorem State.exists_opcode (s : State) (v : View) (b : Nat) :
    ∃ opc : BitVec 8, opc.toNat = s.fieldValue 8 fun k => v.vbase.toNat + (b + k) :=
  ⟨BitVec.ofNat 8 _, by rw [BitVec.toNat_ofNat, Nat.mod_eq_of_lt (State.fieldValue_lt _ _ _)]⟩

/-- Past the opcode octet the only error GETLEN can raise is OOB (R131, R135). -/
theorem State.lengthByKind_error {b : Nat} {opc : BitVec 8} {k : LenKind} (hk : k.valid = true) {e : ErrCode}
    (h : s.lengthByKind v b opc k = .error e) : e = .oob := by
  have ht : ∀ fd : FieldDesc, fd.valid 16 = true → ∀ e, s.tableField v b fd = .error e → e = .oob := by
    intro fd hf e he
    by_cases hb : ∃ d ∈ fd.indices, v.vlen.toNat ≤ b + d
    · rw [State.tableField_oob hf hb] at he
      cases he
      rfl
    · push Not at hb
      rw [State.tableField_ok hf hb] at he
      cases he
  cases k with
  | unknown => cases h
  | fixed n => cases h
  | lenField fd =>
    simp only [State.lengthByKind, bind, Except.bind] at h
    cases hx : s.tableField v b fd with
    | error e' =>
      rw [hx] at h
      cases h
      exact ht fd hk e hx
    | ok x =>
      rw [hx] at h
      cases h
  | countTable fd t1 t2 t3 t4 =>
    simp only [LenKind.valid, Bool.and_eq_true] at hk
    simp only [State.lengthByKind, bind, Except.bind] at h
    cases hx : s.tableField v b fd with
    | error e' =>
      rw [hx] at h
      cases h
      exact ht fd hk.1 e hx
    | ok x =>
      rw [hx] at h
      simp only at h
      split at h <;> cases h

end Machine

end Sys2Proof
end

