-- ==== Sys2Proof/Laws/PerInstr.lean ====
section
/-! SUPPORT. Statements for all instructions, one lemma per constructor. -/

namespace Sys2Proof.Laws

/-- The packet of a well-formed instruction has the number of words its word 0 calls for (R76), and its word 0 carries the
operation code (R75) and a zero `rsv` (R71). -/
def EncodeWords.Statement (i : Instr) : Prop :=
  i.wf = true → (encode i).length = expectedWords ((encode i).headD 0)
    ∧ opOf ((encode i).headD 0) = i.op ∧ rsvOf ((encode i).headD 0) = 0#4

theorem EncodeWords.get (v : View) (bitIndex : Half) : EncodeWords.Statement (.get v bitIndex) := fun _ =>
  ⟨(expectedWords_headerWord 1#4 0 bitIndex).symm, opOf_headerWord _ _ _, rsvOf_headerWord _ _ _⟩

theorem EncodeWords.getint (v : View) (baseOffset startBit lengthBits : Half) :
    EncodeWords.Statement (.getint v baseOffset startBit lengthBits) := fun _ =>
  ⟨(expectedWords_headerWord 2#4 0 baseOffset).symm, opOf_headerWord _ _ _, rsvOf_headerWord _ _ _⟩

theorem EncodeWords.getlong (v : View) (baseOffset startBit lengthBits : Half) :
    EncodeWords.Statement (.getlong v baseOffset startBit lengthBits) := fun _ =>
  ⟨(expectedWords_headerWord 3#4 0 baseOffset).symm, opOf_headerWord _ _ _, rsvOf_headerWord _ _ _⟩

/-- A list's packet: three words and the list words. -/
theorem EncodeWords.list_words (op : Nibble) (hop : op = 4#4 ∨ op = 5#4) (b : Half) (ds : List Half)
    (h : ds.length ≤ 255) :
    3 + (packHalves ds).length = expectedWords (headerWord op (BitVec.ofNat 8 ds.length) b) := by
  rw [expectedWords_headerWord, if_pos hop, packHalves_length, BitVec.toNat_ofNat, Nat.mod_eq_of_lt (by omega)]

theorem EncodeWords.getintx (v : View) (baseOffset : Half) (ds : List Half) :
    EncodeWords.Statement (.getintx v baseOffset ds) := fun h => by
  refine ⟨?_, opOf_headerWord _ _ _, rsvOf_headerWord _ _ _⟩
  have := EncodeWords.list_words 4#4 (.inl rfl) baseOffset ds (of_decide_eq_true h)
  simp only [encode, List.length_cons, List.headD_cons, ← this]
  omega

theorem EncodeWords.getlongx (v : View) (baseOffset : Half) (ds : List Half) :
    EncodeWords.Statement (.getlongx v baseOffset ds) := fun h => by
  refine ⟨?_, opOf_headerWord _ _ _, rsvOf_headerWord _ _ _⟩
  have := EncodeWords.list_words 5#4 (.inr rfl) baseOffset ds (of_decide_eq_true h)
  simp only [encode, List.length_cons, List.headD_cons, ← this]
  omega

theorem EncodeWords.subbuf (v : View) (startBit endBit : Half) : EncodeWords.Statement (.subbuf v startBit endBit) := fun _ =>
  ⟨(expectedWords_headerWord 6#4 0 0).symm, opOf_headerWord _ _ _, rsvOf_headerWord _ _ _⟩

theorem EncodeWords.getlen (v : View) (baseOffset : Half) : EncodeWords.Statement (.getlen v baseOffset) := fun _ =>
  ⟨(expectedWords_headerWord 7#4 0 baseOffset).symm, opOf_headerWord _ _ _, rsvOf_headerWord _ _ _⟩

theorem EncodeWords.load (nbits : Half) (data : List Word) : EncodeWords.Statement (.load nbits data) := fun h => by
  refine ⟨?_, opOf_headerWord _ _ _, rsvOf_headerWord _ _ _⟩
  have hd : data.length = dataWordCount nbits.toNat := of_decide_eq_true h
  have hw : expectedWords (headerWord 8#4 0 nbits) = 3 + dataWordCount nbits.toNat := expectedWords_headerWord 8#4 0 nbits
  simp only [encode, List.length_cons, List.headD_cons, hd, hw]
  omega

theorem EncodeWords.discard : EncodeWords.Statement .discard := fun _ =>
  ⟨(expectedWords_headerWord 9#4 0 0).symm, opOf_headerWord _ _ _, rsvOf_headerWord _ _ _⟩

end Sys2Proof.Laws
end

