-- ==== Sys2Proof/Laws/Step.lean ====
section
/-! SUPPORT. What a step can do, said once: the inversion lemmas of `exec`, `acceptFrom` and `step`. -/

namespace Sys2Proof.Machine

/-- Everything LOAD can do (R151). -/
theorem loadNext_cases (n : Half) (data : List Word) (s : State) :
    (∃ e, loadError n s = some e ∧ loadNext n data s = s.raise e 8#4 (encode (.load n data)))
      ∨ (s.port = .H ∧ s.loaded = false ∧ n.toNat ≤ s.cfg.capBits
          ∧ loadNext n data s = (s.install n.toNat data).respond 8#4 0 (viewWord ⟨0, n⟩) 0) := by
  unfold loadNext
  cases h : loadError n s with
  | some e => exact .inl ⟨e, rfl, rfl⟩
  | none =>
    unfold loadError at h
    split at h
    · cases h
    split at h
    · cases h
    split at h
    · cases h
    rename_i hp hl hc
    refine .inr ⟨?_, by simpa using hl, by omega, rfl⟩
    cases hport : s.port with
    | H => rfl
    | R => exact absurd hport hp

/-- Everything DISCARD can do (R153). -/
theorem discardNext_cases (s : State) :
    (∃ e, discardError s = some e ∧ discardNext s = s.raise e 9#4 (encode .discard))
      ∨ (s.port = .H ∧ s.loaded = true ∧ discardNext s = s.drop.respond 9#4 0 0 0) := by
  unfold discardNext
  cases h : discardError s with
  | some e => exact .inl ⟨e, rfl, rfl⟩
  | none =>
    unfold discardError at h
    split at h
    · cases h
    split at h
    · cases h
    rename_i hp hl
    refine .inr ⟨?_, by simpa using hl, rfl⟩
    cases hport : s.port with
    | H => rfl
    | R => exact absurd hport hp

/-- Everything a decoded command can do: answer with code 0 and change nothing else, enter an error, create the buffer, or
discard it. -/
theorem exec_cases (i : Instr) (s : State) :
    (∃ w1 w2, exec i s = .next (s.respond i.op 0 w1 w2))
      ∨ (∃ e, exec i s = .next (s.raise e i.op (encode i)))
      ∨ (∃ n data, i = .load n data ∧ s.port = .H ∧ s.loaded = false ∧ n.toNat ≤ s.cfg.capBits
          ∧ exec i s = .next ((s.install n.toNat data).respond 8#4 0 (viewWord ⟨0, n⟩) 0))
      ∨ (i = .discard ∧ s.port = .H ∧ s.loaded = true ∧ exec i s = .next (s.drop.respond 9#4 0 0 0)) := by
  cases hv : i.view with
  | some v =>
    obtain ⟨r, hr⟩ := exec_requester i hv s
    cases r with
    | ok p => exact .inl ⟨p.1, p.2, hr⟩
    | error e => exact .inr (.inl ⟨e, hr⟩)
  | none =>
    rcases i with _ | _ | _ | _ | _ | _ | _ | ⟨n, data⟩ | _ <;> try (cases hv; done)
    · rcases loadNext_cases n data s with ⟨e, -, h⟩ | ⟨hp, hl, hc, h⟩
      · exact .inr (.inl ⟨e, congrArg _ h⟩)
      · exact .inr (.inr (.inl ⟨n, data, rfl, hp, hl, hc, congrArg _ h⟩))
    · rcases discardNext_cases s with ⟨e, -, h⟩ | ⟨hp, hl, h⟩
      · exact .inr (.inl ⟨e, congrArg _ h⟩)
      · exact .inr (.inr (.inr ⟨rfl, hp, hl, congrArg _ h⟩))

/-- Every decoded command answers a next state. -/
theorem exec_next (i : Instr) (s : State) : ∃ t, exec i s = .next t := by
  rcases exec_cases i s with ⟨_, _, h⟩ | ⟨_, h⟩ | ⟨_, _, _, _, _, _, h⟩ | ⟨_, _, _, h⟩ <;> exact ⟨_, h⟩

theorem runPacket_ok {ws : List Word} {i : Instr} (h : decode ws = .ok i) (s : State) : runPacket ws s = exec i s := by
  simp [runPacket, h]

theorem runPacket_error {ws : List Word} {m : Malformed} (h : decode ws = .error m) (s : State) :
    runPacket ws s = .next (s.raise .badcmd (opEcho ws) ws) := by
  simp [runPacket, h]

theorem runPacket_next (ws : List Word) (s : State) : ∃ t, runPacket ws s = .next t := by
  cases h : decode ws with
  | ok i => rw [runPacket_ok h]; exact exec_next i s
  | error m => exact ⟨_, runPacket_error h s⟩

/-- Everything an accepted packet can do. -/
theorem runPacket_cases (ws : List Word) (s : State) :
    (∃ op w1 w2, runPacket ws s = .next (s.respond op 0 w1 w2))
      ∨ (∃ e op packet, runPacket ws s = .next (s.raise e op packet))
      ∨ (∃ n data, decode ws = .ok (.load n data) ∧ s.port = .H ∧ s.loaded = false ∧ n.toNat ≤ s.cfg.capBits
          ∧ runPacket ws s = .next ((s.install n.toNat data).respond 8#4 0 (viewWord ⟨0, n⟩) 0))
      ∨ (decode ws = .ok .discard ∧ s.port = .H ∧ s.loaded = true ∧ runPacket ws s = .next (s.drop.respond 9#4 0 0 0)) := by
  cases h : decode ws with
  | ok i =>
    rw [runPacket_ok h]
    rcases exec_cases i s with ⟨_, _, h'⟩ | ⟨_, h'⟩ | ⟨n, data, rfl, hp, hl, hc, h'⟩ | ⟨rfl, hp, hl, h'⟩
    · exact .inl ⟨_, _, _, h'⟩
    · exact .inr (.inl ⟨_, _, _, h'⟩)
    · exact .inr (.inr (.inl ⟨n, data, rfl, hp, hl, hc, h'⟩))
    · exact .inr (.inr (.inr ⟨rfl, hp, hl, h'⟩))
  | error m => exact .inr (.inl ⟨_, _, _, runPacket_error h s⟩)

theorem acceptFrom_nil {p : Port} {s : State} (h : s.offers p = []) : acceptFrom p s = .next s := by
  simp [acceptFrom, h]

theorem acceptFrom_cons {p : Port} {s : State} {o : Offer} {rest : List Offer} (h : s.offers p = o :: rest) :
    acceptFrom p s = runPacket o.words (s.take p o) := by
  simp [acceptFrom, h]

/-- Only a port that offers a packet is served (R174). -/
theorem State.offers_of_arbitrate {s : State} {p : Port} (h : s.arbitrate = some p) : ∃ o rest, s.offers p = o :: rest := by
  unfold State.arbitrate at h
  split at h
  · cases h
  · rename_i o rest hh hr
    cases h
    exact ⟨o, rest, hh⟩
  · rename_i o rest hh hr
    cases h
    exact ⟨o, rest, hr⟩
  · rename_i o rest o' rest' hh hr
    cases p with
    | H => exact ⟨o, rest, hh⟩
    | R => exact ⟨o', rest', hr⟩

theorem State.arbitrate_eq_none_iff (s : State) : s.arbitrate = none ↔ s.hIn = [] ∧ s.rIn = [] := by
  unfold State.arbitrate
  split <;> simp_all

theorem step_reset {s : State} (h : s.resetReq = true) : step s = .next s.applyReset := by
  simp [step, h]

theorem step_halted {s : State} (hr : s.resetReq = false) (h : s.halted = true) : step s = .fault .halted := by
  simp [step, hr, h]

theorem step_idle {s : State} (hr : s.resetReq = false) (hh : s.halted = false) (ha : s.arbitrate = none) :
    step s = .next s := by
  simp [step, hr, hh, ha]

theorem step_accept {s : State} {p : Port} {o : Offer} {rest : List Offer} (hr : s.resetReq = false)
    (hh : s.halted = false) (ha : s.arbitrate = some p) (ho : s.offers p = o :: rest) :
    step s = runPacket o.words (s.take p o) := by
  simp [step, hr, hh, ha, acceptFrom_cons ho]

/-- Everything a step can do: perform a reset, be stuck while halted, wait, or run the oldest packet of the port
served. -/
theorem step_cases (s : State) :
    (s.resetReq = true ∧ step s = .next s.applyReset)
      ∨ (s.resetReq = false ∧ s.halted = true ∧ step s = .fault .halted)
      ∨ (s.resetReq = false ∧ s.halted = false ∧ s.hIn = [] ∧ s.rIn = [] ∧ step s = .next s)
      ∨ (∃ p o rest, s.resetReq = false ∧ s.halted = false ∧ s.arbitrate = some p ∧ s.offers p = o :: rest
          ∧ step s = runPacket o.words (s.take p o)) := by
  cases hr : s.resetReq with
  | true => exact .inl ⟨rfl, step_reset hr⟩
  | false =>
    cases hh : s.halted with
    | true => exact .inr (.inl ⟨rfl, rfl, step_halted hr hh⟩)
    | false =>
      cases ha : s.arbitrate with
      | none =>
        obtain ⟨h1, h2⟩ := s.arbitrate_eq_none_iff.mp ha
        exact .inr (.inr (.inl ⟨rfl, rfl, h1, h2, step_idle hr hh ha⟩))
      | some p =>
        obtain ⟨o, rest, ho⟩ := State.offers_of_arbitrate ha
        exact .inr (.inr (.inr ⟨p, o, rest, rfl, rfl, rfl, ho, step_accept hr hh ha ho⟩))

end Sys2Proof.Machine
end

