-- ==== Sys2Proof/Laws/Runs.lean ====
section
/-! SUPPORT. What a step that is no reset does to the packets that wait and the responses that were sent: the step lemma
behind every statement about runs (spec/70 R195). -/

namespace Sys2Proof.Machine

/-- Accepting a packet takes the oldest from its port and leaves the other port. -/
theorem State.take_offers {s : State} {p : Port} {o : Offer} {rest : List Offer} (h : s.offers p = o :: rest) (q : Port) :
    (s.take p o).offers q = if q = p then rest else s.offers q := by
  cases p <;> cases q <;> simp_all [State.offers]

@[simp] theorem State.take_sent (s : State) (p : Port) (o : Offer) (q : Port) : (s.take p o).sent q = s.sent q := by
  cases q <;> rfl

/-- Offering a packet adds it behind those that wait at its port. -/
theorem State.offer_offers (s : State) (p : Port) (o : Offer) (q : Port) :
    (s.offer p o).offers q = if q = p then s.offers q ++ [o] else s.offers q := by
  cases p <;> cases q <;> simp [State.offers]

@[simp] theorem State.offer_sent (s : State) (p : Port) (o : Offer) (q : Port) : (s.offer p o).sent q = s.sent q := by
  cases q <;> rfl

/-- What one response does to the record, read port by port. -/
theorem State.Sends.sent {s t : State} {r : Response} (h : s.Sends t r) (q : Port) :
    t.sent q = if q = s.port then s.sent q ++ [r] else s.sent q := by
  obtain ⟨h1, h2⟩ := h
  cases hp : s.port <;> cases q <;> simp_all [State.sent]

/-- Everything running an accepted packet does that runs and error bits show: one response is sent, nothing that waits is
touched, no reset is applied; with code 0 the error bits stay, with another code the state is in error and halted as
`DEBUG` says. -/
theorem runPacket_response (ws : List Word) (s : State) :
    ∃ t r, runPacket ws s = .next t ∧ s.Sends t r ∧ (∀ q, t.offers q = s.offers q)
      ∧ t.resetReq = s.resetReq ∧ t.debug = s.debug
      ∧ (r.code = 0 → t.errSeen = s.errSeen ∧ t.halted = s.halted)
      ∧ (r.code ≠ 0 → t.errSeen = true ∧ t.halted = (s.halted || s.debug)) := by
  rcases runPacket_cases ws s with ⟨op, w1, w2, h⟩ | ⟨e, op, packet, h⟩ | ⟨n, data, -, -, -, -, h⟩ | ⟨-, -, -, h⟩
  · exact ⟨_, _, h, State.respond_sends s op 0 w1 w2, fun q => by cases q <;> rfl, rfl, rfl, fun _ => ⟨rfl, rfl⟩,
      fun hc => absurd (Response.code_mk op 0 w1 w2) hc⟩
  · exact ⟨_, _, h, State.raise_sends s e op packet, fun q => by cases q <;> rfl, rfl, rfl,
      fun hc => absurd ((Response.code_mk _ _ _ _).symm.trans hc) e.code_ne_zero, fun _ => ⟨rfl, rfl⟩⟩
  · exact ⟨_, _, h, State.respond_sends (s.install n.toNat data) 8#4 0 (viewWord ⟨0, n⟩) 0, fun q => by cases q <;> rfl,
      rfl, rfl, fun _ => ⟨rfl, rfl⟩, fun hc => absurd (Response.code_mk _ _ _ _) hc⟩
  · exact ⟨_, _, h, State.respond_sends s.drop 9#4 0 0 0, fun q => by cases q <;> rfl, rfl, rfl, fun _ => ⟨rfl, rfl⟩,
      fun hc => absurd (Response.code_mk _ _ _ _) hc⟩

/-- Everything a step that is no reset can do to packets, responses and error bits: nothing at all, while nothing waits; or
one packet less waits at the port served, one response more was sent there, and the error bits follow its code. -/
theorem step_books {s u : State} (hr : s.resetReq = false) (h : step s = .next u) :
    (u = s ∧ s.hIn = [] ∧ s.rIn = [])
      ∨ ∃ p o rest r, s.offers p = o :: rest ∧ s.halted = false
        ∧ (∀ q, u.offers q = if q = p then rest else s.offers q)
        ∧ (∀ q, u.sent q = if q = p then s.sent q ++ [r] else s.sent q)
        ∧ u.resetReq = false ∧ u.debug = s.debug
        ∧ (r.code = 0 → u.errSeen = s.errSeen ∧ u.halted = false)
        ∧ (r.code ≠ 0 → u.errSeen = true ∧ u.halted = s.debug) := by
  rcases step_cases s with ⟨h', -⟩ | ⟨-, -, h'⟩ | ⟨-, -, h1, h2, h'⟩ | ⟨p, o, rest, -, hh, -, ho, h'⟩
  · rw [hr] at h'
    cases h'
  · rw [h'] at h
    cases h
  · rw [h'] at h
    cases h
    exact .inl ⟨rfl, h1, h2⟩
  · obtain ⟨t, r, ht, hs, hq, hrr, hd, h0, h1⟩ := runPacket_response o.words (s.take p o)
    rw [h', ht] at h
    cases h
    refine .inr ⟨p, o, rest, r, ho, hh, fun q => by rw [hq, State.take_offers ho], fun q => ?_, by rw [hrr]; exact hr,
      by rw [hd]; rfl, fun hc => ?_, fun hc => ?_⟩
    · rw [hs.sent]
      simp
    · exact ⟨(h0 hc).1, (h0 hc).2.trans hh⟩
    · refine ⟨(h1 hc).1, ?_⟩
      rw [(h1 hc).2]
      simp [hh]

end Sys2Proof.Machine
end

