-- ==== Sys2Proof/Tests/Slice0.lean ====
section
/-! SUPPORT. Small tests. Expected words are those of spec/95_test_vectors.md (sections named at each test) or are written
out from the encoding tables of spec/30_encoding.md; after them, for each statement with hypotheses, a witness that its
hypotheses can be met together. -/

namespace Sys2Proof.Tests

open Sys2Proof.Machine

/-! ## The synthetic configuration and buffer of 95_test_vectors.md section 2 -/

/-- `CFG_REF`. -/
def cfgRef : Cfg where
  capBits := 1024
  lenTab := (Vector.replicate 256 LenKind.unknown)
    |>.set 0x11 (.countTable (.contig 13 3) 4 6 8 10)
    |>.set 0x12 (.countTable (.contig 13 3) 5 8 11 14)
    |>.set 0x21 (.lenField (.contig 10 6))
    |>.set 0x40 (.fixed 3)
  ok := by decide +kernel

/-- The data words of `B0`. -/
def b0Words : List Word := [0x11031234, 0x56789ABC, 0x2105DEAD, 0xBE40F00F]

/-- Just reset, with `CFG_REF` and a given strap; commands come on the H-port. -/
def empty (debug : Bool) : State := { State.reset with cfg := cfgRef, strap := debug, debug := debug }

/-- `B0` loaded; commands come on the R-port. -/
def b0 (debug : Bool) : State :=
  { empty debug with store := Cells.runFrom 0 (loadBits 128 b0Words), len := 128, loaded := true, port := .R }

/-- A buffer of two octets, the upper half of a word. -/
def twoOctets (w : Word) : State := { b0 false with store := Cells.runFrom 0 (loadBits 16 [w]), len := 16 }

/-- The last response on the port of the command. -/
def reply : Host.Outcome State Fault Refusal → Option Response
  | .next t => (t.sent t.port).getLast?
  | .fault _ => none
  | .refused _ => none

/-- Its three words. -/
def replyWords (o : Host.Outcome State Fault Refusal) : Option (List Word) := (reply o).map fun r => [r.w0, r.w1, r.w2]

/-- Its word 0: all that is fixed of an errored response. -/
def replyHead (o : Host.Outcome State Fault Refusal) : Option Word := (reply o).map Response.w0

/-- `STATUS` after it. -/
def statusAfter : Host.Outcome State Fault Refusal → Option Word
  | .next t => some t.status
  | .fault _ => none
  | .refused _ => none

/-- List words of consecutive pairs: word `k` holds `2*m*k` and `2*m*k + m`. -/
def listWords (m count : Nat) : List Word :=
  (List.range count).map fun k => pairWord (BitVec.ofNat 16 (2 * m * k)) (BitVec.ofNat 16 (2 * m * k + m))

/-! ## WellFormed: an ill-formed term for each check -/

theorem test_wf_refuses_getintx_256 : (Instr.getintx ⟨0, 128⟩ 0 (List.replicate 256 0)).wf = false := by
  decide +kernel
theorem test_wf_refuses_getlongx_256 : (Instr.getlongx ⟨0, 128⟩ 0 (List.replicate 256 0)).wf = false := by
  decide +kernel
theorem test_wf_refuses_load_short : (Instr.load 33 [0]).wf = false := by decide
theorem test_wf_refuses_load_long : (Instr.load 32 [0, 0]).wf = false := by decide
theorem test_wf_accepts : (Instr.getintx ⟨0, 128⟩ 0 (List.replicate 255 0)).wf = true ∧ (Instr.load 33 [0, 0]).wf = true := by
  decide +kernel

/-! ## Decode: words written out from the encoding (R71 to R76) -/

theorem test_decode_get : decode [0x10000027, 0x00400028, 0] = .ok (.get ⟨64, 40⟩ 39) := by decide
theorem test_decode_getint : decode [0x20000040, 0x00000080, 0x000A0006] = .ok (.getint ⟨0, 128⟩ 64 10 6) := by decide
theorem test_decode_getlong : decode [0x30000041, 0x00000080, 0x00010040] = .ok (.getlong ⟨0, 128⟩ 65 1 64) := by decide
theorem test_decode_getintx :
    decode [0x40040008, 0x00000080, 0, 0x00030007, 0x000E000F] = .ok (.getintx ⟨0, 128⟩ 8 [3, 7, 14, 15]) := by decide
theorem test_decode_getlongx :
    decode [0x50030000, 0x00000080, 0, 0x00030007, 0x000E0000] = .ok (.getlongx ⟨0, 128⟩ 0 [3, 7, 14]) := by decide
theorem test_decode_subbuf : decode [0x60000000, 0x00400028, 0x00100028] = .ok (.subbuf ⟨64, 40⟩ 16 40) := by decide
theorem test_decode_getlen : decode [0x70000068, 0x00000080, 0] = .ok (.getlen ⟨0, 128⟩ 104) := by decide
theorem test_decode_load : decode [0x8000000D, 0, 0, 0xA5FF0000] = .ok (.load 13 [0xA5FF0000]) := by decide
theorem test_decode_discard : decode [0x90000000, 0, 0] = .ok .discard := by decide

/-- Section 9, the malformed packets, each with the condition of R77 it fails. -/
theorem test_decode_malformed :
    decode [] = .error .empty
    ∧ decode [0, 0, 0] = .error .reservedOp
    ∧ decode [0xA0000000, 0x80, 0] = .error .reservedOp
    ∧ decode [0xF0000000, 0x80, 0] = .error .reservedOp
    ∧ decode [0x11000003, 0x80, 0] = .error .reservedField
    ∧ decode [0x10010003, 0x80, 0] = .error .mustBeZero
    ∧ decode [0x10000003, 0x80, 1] = .error .mustBeZero
    ∧ decode [0x10000003, 0x80] = .error .tooShort
    ∧ decode [0x10000003, 0x80, 0, 0] = .error .wordCount
    ∧ decode [0x60000001, 0x80, 8] = .error .mustBeZero
    ∧ decode [0x70000000, 0x80, 0x10000] = .error .mustBeZero := by
  decide

/-- The same for the packets with extension words and for the host's. -/
theorem test_decode_malformed_lists_and_host :
    decode [0x40030000, 0x80, 0, 0x00030007, 0x000E0001] = .error .listPad
    ∧ decode [0x40030000, 0x80, 0, 0x00030007] = .error .wordCount
    ∧ decode [0x40020000, 0x80, 1, 0x00030007] = .error .mustBeZero
    ∧ decode [0x90000001, 0, 0] = .error .mustBeZero
    ∧ decode [0x80000008, 1, 0, 0xFF000000] = .error .mustBeZero
    ∧ decode [0x80000008, 0, 0] = .error .wordCount := by
  decide

/-- The numbering of the opcode table: bit 0 is the least significant bit of word 0, later words count on from it. -/
theorem test_decodeTableWord :
    decodeTableWord 32 0x10000003 = some (.get ⟨0, 0⟩ 3)
    ∧ decodeTableWord 96 0x000A0006_00000080_20000040 = some (.getint ⟨0, 128⟩ 64 10 6)
    ∧ decodeTableWord 32 0x40030000 = some (.getintx ⟨0, 0⟩ 0 [0, 0, 0])
    ∧ decodeTableWord 32 0x8000000D = some (.load 13 [0])
    ∧ decodeTableWord 32 0x90000000 = some .discard
    ∧ decodeTableWord 32 0 = none := by
  decide

/-! ## The commands (sections 3 to 9): packet in, response words out -/

/-- Section 3. -/
theorem test_get : replyWords (runPacket [0x10000003, 0x80, 0] (b0 false)) = some [0x10000000, 0, 1] := by decide +kernel
/-- Section 3: the bound is the view's. -/
theorem test_get_oob : replyHead (runPacket [0x10000028, 0x00400028, 0] (b0 false)) = some 0x18000000 := by decide +kernel
/-- Section 4: across an octet boundary. -/
theorem test_getint : replyWords (runPacket [0x20000000, 0x80, 0x000C0008] (b0 false)) = some [0x20000000, 0, 0x31] := by
  decide +kernel
/-- Section 4: no wrap at 16 bits (R94). -/
theorem test_getint_no_wrap : replyHead (runPacket [0x2000FFFF, 0x80, 0xFFFF0020] (b0 false)) = some 0x28000000 := by
  decide +kernel
/-- Section 5: an unaligned field of 64 bits. -/
theorem test_getlong :
    replyWords (runPacket [0x30000003, 0x80, 0x40] (b0 false)) = some [0x30000000, 0x881891A2, 0xB3C4D5E1] := by
  decide +kernel
/-- Section 5: length 65. -/
theorem test_getlong_baddesc : replyHead (runPacket [0x30000000, 0x80, 0x41] (b0 false)) = some 0x37000000 := by
  decide +kernel
/-- Section 6: 32 even indices. -/
theorem test_getintx :
    replyWords (runPacket ([0x40200000, 0x80, 0] ++ listWords 2 16) (b0 false)) = some [0x40000000, 0, 0x011416BE] := by
  decide +kernel
/-- Section 6: BADDESC, not OOB. -/
theorem test_getintx_baddesc : replyHead (runPacket [0x40020000, 0x80, 0, 0x00C80064] (b0 false)) = some 0x47000000 := by
  decide +kernel
/-- Section 6: 64 even indices. -/
theorem test_getlongx :
    replyWords (runPacket ([0x50400000, 0x80, 0] ++ listWords 2 32) (b0 false))
      = some [0x50000000, 0x011416BE, 0x40BEF0C3] := by
  decide +kernel
/-- Section 6: 65 indices are framed and refused. -/
theorem test_getlongx_baddesc :
    replyHead (runPacket ([0x50410000, 0x80, 0] ++ listWords 1 32 ++ [0x00400000]) (b0 false)) = some 0x57000000 := by
  decide +kernel
/-- Section 7: a slice of a slice. -/
theorem test_subbuf :
    replyWords (runPacket [0x60000000, 0x00400028, 0x00100028] (b0 false)) = some [0x60000000, 0x00500018, 0] := by
  decide +kernel
/-- Section 7: BADDESC before OOB, OOB by one bit, BADVIEW. -/
theorem test_subbuf_errors :
    replyHead (runPacket [0x60000000, 0x80, 0x00C80064] (b0 false)) = some 0x67000000
    ∧ replyHead (runPacket [0x60000000, 0x80, 0x00000081] (b0 false)) = some 0x68000000
    ∧ replyHead (runPacket [0x60000000, 0x00810000, 0] (b0 false)) = some 0x66000000 := by
  decide +kernel
/-- Section 8: count table, length field, fixed, unknown; a count of 7 and a length of 63 octets are normal answers. -/
theorem test_getlen :
    replyWords (runPacket [0x70000000, 0x80, 0] (b0 false)) = some [0x70000000, 0, 0x07110008]
    ∧ replyWords (runPacket [0x70000040, 0x80, 0] (b0 false)) = some [0x70000000, 0, 0x06210005]
    ∧ replyWords (runPacket [0x70000000, 0x00680008, 0] (b0 false)) = some [0x70000000, 0, 0x05400003]
    ∧ replyWords (runPacket [0x70000078, 0x80, 0] (b0 false)) = some [0x70000000, 0, 0x000F0000]
    ∧ replyWords (runPacket [0x70000000, 0x10, 0] (twoOctets 0x11070000)) = some [0x70000000, 0, 0x03110000]
    ∧ replyWords (runPacket [0x70000000, 0x10, 0] (twoOctets 0x213F0000)) = some [0x70000000, 0, 0x0621003F] := by
  decide +kernel
/-- Section 8: OOB on the length field, on the count field, on the opcode octet. -/
theorem test_getlen_oob :
    replyHead (runPacket [0x70000000, 0x0040000C, 0] (b0 false)) = some 0x78000000
    ∧ replyHead (runPacket [0x70000000, 0x0000000D, 0] (b0 false)) = some 0x78000000
    ∧ replyHead (runPacket [0x70000079, 0x80, 0] (b0 false)) = some 0x78000000 := by
  decide +kernel
/-- Section 9, sequence A row 10, and R151: 13 bits stored, first bit most significant. -/
theorem test_load :
    replyWords (runPacket [0x8000000D, 0, 0, 0xA5FF0000] (empty false)) = some [0x80000000, 0x0000000D, 0]
    ∧ statusAfter (runPacket [0x8000000D, 0, 0, 0xA5FF0000] (empty false)) = some 0x000D0001
    ∧ (match runPacket [0x8000000D, 0, 0, 0xA5FF0000] (empty false) with
        | .next t => t.contents
        | _ => []) = [true, false, true, false, false, true, false, true, true, true, true, true, true] := by
  decide +kernel
/-- Section 9, sequence A rows 2, 3 and 7. -/
theorem test_load_errors :
    replyHead (runPacket ([0x80000401, 0, 0] ++ List.replicate 33 0) (empty false)) = some 0x85000000
    ∧ replyHead (runPacket [0x80000008, 0, 0, 0xFF000000] (b0 false)) = some 0x82000000
    ∧ replyHead (runPacket [0x80000008, 0, 0, 0xFF000000]
        { empty false with loaded := true }) = some 0x84000000 := by
  decide +kernel
/-- Section 11, P1 row 6. -/
theorem test_discard :
    replyWords (runPacket [0x90000000, 0, 0] { b0 false with port := .H }) = some [0x90000000, 0, 0]
    ∧ statusAfter (runPacket [0x90000000, 0, 0] { b0 false with port := .H }) = some 0 := by
  decide +kernel
/-- Section 9, sequence A rows 1 and 8, with `STATUS` after row 1. -/
theorem test_discard_errors :
    replyHead (runPacket [0x90000000, 0, 0] (empty false)) = some 0x93000000
    ∧ statusAfter (runPacket [0x90000000, 0, 0] (empty false)) = some 0x00000938
    ∧ replyHead (runPacket [0x90000000, 0, 0] (b0 false)) = some 0x92000000 := by
  decide +kernel

/-- Section 9: BADCMD before PRIV; BADVIEW before OOB; NOBUF first; the empty packet echoes 0. -/
theorem test_priority :
    replyHead (runPacket [0x90000001, 0, 0] (b0 false)) = some 0x91000000
    ∧ replyHead (runPacket [0x10000080, 0x00640028, 0] (b0 false)) = some 0x16000000
    ∧ replyHead (runPacket [0x10000080, 0x00640028, 0] (empty false)) = some 0x13000000
    ∧ replyHead (runPacket [] (b0 false)) = some 0x01000000 := by
  decide +kernel

/-! ## Steps -/

/-- Section 11, P3 step 3, in release and in debug mode. -/
theorem test_error_entry :
    statusAfter (runPacket [0x20000000, 0x00400028, 0x00100020] (b0 false)) = some 0x00800289
    ∧ statusAfter (runPacket [0x20000000, 0x00400028, 0x00100020] (b0 true)) = some 0x0080028F := by
  decide +kernel

/-- A block after an error in debug mode, with a packet waiting. -/
def haltedBlock : State :=
  { b0 true with halted := true, errSeen := true, fcode := 8, fop := 2, hIn := [⟨[0x90000000, 0, 0], []⟩] }

/-- Section 11, P3 in debug mode: the packet is not accepted; reset brings `STATUS` to 2 and loses it. -/
theorem test_halted :
    step haltedBlock = .fault .halted ∧ statusAfter (step haltedBlock.assertReset) = some 2 :=
  ⟨rfl, by decide +kernel⟩

/-- Section 11, P5: a DISCARD and a GET that wait at the two ports. -/
def race : State :=
  (b0 false |>.offer .H ⟨[0x90000000, 0, 0], []⟩).offer .R ⟨[0x10000003, 0x80, 0], []⟩

/-- P5, the first step of each order. -/
theorem test_both_ports :
    replyWords (acceptFrom .R race) = some [0x10000000, 0, 1] ∧ statusAfter (acceptFrom .R race) = some 0x00800001
    ∧ replyWords (acceptFrom .H race) = some [0x90000000, 0, 0] ∧ statusAfter (acceptFrom .H race) = some 0 := by
  decide +kernel

/-- P5, order H then R: the GET finds nothing loaded. -/
theorem test_stale_get :
    replyHead (match acceptFrom .H race with
      | .next t => acceptFrom .R t
      | o => o) = some 0x13000000 := by
  decide +kernel

/-- The packet `withFetchWord` places is the one the next step runs. -/
theorem test_withFetchWord :
    step (State.reset.withFetchWord 32 0x90000000)
      = exec .discard ((State.reset.withFetchWord 32 0x90000000).take .H ⟨[0x90000000, 0, 0], []⟩) := rfl

/-- A written program line and its packet (sections 3 and 10): `GETVENDOR (0,32), 0`, and the data words of `B2`. -/
theorem test_assemble :
    ((Written.getvendor (.pair 0 32) 0).assemble ⟨0, 0⟩).map encode = some [0x20000000, 0x00000020, 0x00080008]
    ∧ ((Written.load 88 [0x05, 0x00, 0x20, 0x64, 0x30, 0xC8, 0x12, 0x34, 0x56, 0x78, 0x9A]).assemble ⟨0, 0⟩).map encode
        = some [0x80000058, 0, 0, 0x05002064, 0x30C81234, 0x56789A00] := by
  decide

/-! ## Witnesses: the hypotheses of each statement, met together -/

/-- `B0`'s root view and two of its slices. -/
def root : View := ⟨0, 128⟩

/-- Checking every member of a list (`decide` alone would go through all 65536 halves). -/
theorem forall_mem_of_all {α : Type} {p : α → Prop} [DecidablePred p] {l : List α}
    (h : l.all (fun d => decide (p d)) = true) : ∀ d ∈ l, p d :=
  fun d hd => of_decide_eq_true (List.all_eq_true.mp h d hd)

/-- A packet that waits at the H-port of a block that is neither halted nor being reset. -/
def waiting (ws : List Word) (s : State) : State := s.offer .H ⟨ws, []⟩

theorem witness_DecodeOfEncodeIsTheCommand :
    (Instr.getlongx ⟨65535, 65535⟩ 65535 (List.replicate 255 65535)).wf = true ∧ (Instr.load 33 [0, 0]).wf = true := by
  decide +kernel

theorem witness_EncodeOfDecodeIsThePacket :
    decode [0x40010000, 0x80, 0, 0xFFFF0000] = .ok (.getintx root 0 [65535]) := by decide

/-- Each condition of R77 is met by a packet that meets none of the others before it, and one packet meets none. -/
theorem witness_MalformedExactlyAsListed :
    (∃ m, decode [0x10000003, 0x80, 0, 0] = .error m) ∧ (∃ m, decode [0xA0000000, 0, 0] = .error m)
    ∧ (∃ m, decode [0x41010000, 0, 0, 0] = .error m) ∧ (∃ m, decode [0x40010000, 0, 0, 1] = .error m)
    ∧ decode [0x40010000, 0, 0, 0] = .ok (.getintx ⟨0, 0⟩ 0 [0]) :=
  ⟨⟨_, rfl⟩, ⟨_, rfl⟩, ⟨_, rfl⟩, ⟨_, rfl⟩, rfl⟩

theorem witness_AssembledCommandIsWellFormed :
    (Written.getoctet .root 0 8191).assemble root = some (.getint root 0 65528 8) := by decide

/-- Both spellings of a view, a longest list, and a LOAD whose last word is partly filled. -/
theorem witness_WrittenFormAssemblesToItsCommand :
    (WrittenView.pair 0 128 = .pair root.vbase.toNat root.vlen.toNat) ∧ (WrittenView.root = .root ∧ root = root)
      ∧ (List.replicate 255 (0 : Half)).length ≤ 255
      ∧ (([0xA5, 0xFF] : List (BitVec 8)).length + 3) / 4 = ((13 : Half).toNat + 31) / 32 := by
  decide +kernel

/-- The clauses on the root view: a longest buffer, and a LOAD of exactly the capacity. -/
theorem witness_PseudoInstructionsExpandToGetint :
    ({ b0 false with len := 65535 } : State).len ≤ 65535 ∧ (empty false).port = .H ∧ (empty false).loaded = false
      ∧ (1024 : Half).toNat ≤ (empty false).cfg.capBits := by
  decide

/-- Both ports offer a packet and the H-port is alone; the served packet decodes. -/
theorem witness_StepRunsTheDecodedCommand :
    let s := waiting [0x10000003, 0x80, 0] (b0 false)
    s.resetReq = false ∧ s.halted = false ∧ s.arbitrate = some .H
      ∧ s.offers .H = [⟨[0x10000003, 0x80, 0], []⟩] ∧ decode [0x10000003, 0x80, 0] = .ok (.get root 3) := by
  decide

/-- The same of the R-port. -/
theorem witness_StepRunsTheDecodedCommand_R :
    let s := (b0 false).offer .R ⟨[0x90000000, 0, 0], []⟩
    s.resetReq = false ∧ s.halted = false ∧ s.arbitrate = some .R
      ∧ s.offers .R = [⟨[0x90000000, 0, 0], []⟩] ∧ decode [0x90000000, 0, 0] = .ok .discard := by
  decide

/-- Both clauses: no error seen yet, and one seen. -/
theorem witness_MalformedPacketRaisesBadcmd :
    let s := waiting [] (b0 true)
    let u := waiting [] { b0 false with errSeen := true, fcode := 8, fop := 2 }
    (s.resetReq = false ∧ s.halted = false ∧ s.arbitrate = some .H ∧ s.offers .H = [⟨[], []⟩] ∧ s.errSeen = false)
      ∧ (u.resetReq = false ∧ u.halted = false ∧ u.arbitrate = some .H ∧ u.offers .H = [⟨[], []⟩] ∧ u.errSeen = true)
      ∧ decode [] = .error .empty := by
  decide

theorem witness_EitherOfferingPortIsServed :
    race.resetReq = false ∧ race.halted = false ∧ race.hIn ≠ [] ∧ race.rIn ≠ []
      ∧ ((waiting [] (b0 false)).hIn ≠ [] ∧ (waiting [] (b0 false)).rIn = [])
      ∧ (((b0 false).offer .R ⟨[], []⟩).rIn ≠ [] ∧ ((b0 false).offer .R ⟨[], []⟩).hIn = [])
      ∧ (waiting [] (b0 false)).arbitrate = some .H := by
  decide

theorem witness_EveryAcceptedPacketIsAnsweredOnce :
    let s := waiting [0x90000000, 0, 0] (empty true)
    s.resetReq = false ∧ s.halted = false ∧ s.arbitrate = some .H ∧ s.offers .H = [⟨[0x90000000, 0, 0], []⟩] := by
  decide

theorem witness_OnlyAHaltedBlockIsStuck :
    haltedBlock.halted = true ∧ haltedBlock.resetReq = false ∧ step haltedBlock = .fault .halted := ⟨rfl, rfl, rfl⟩

theorem witness_ResetGivesTheResetState : haltedBlock.assertReset.resetReq = true := rfl

theorem witness_ErrorEntryRecordsTheFirstError : (b0 true).errSeen = false ∧ haltedBlock.errSeen = true := ⟨rfl, rfl⟩

/-- The boundary of the clause on `LEN`. -/
theorem witness_StatusWordHasEveryFieldInPlace : ({ b0 false with len := 65535 } : State).len ≤ 65535 := by decide

theorem witness_ErrorBitsStayUntilReset :
    let s := waiting [0x90000000, 0, 0] { b0 false with errSeen := true, fcode := 8, fop := 2 }
    (∃ t, step s = .next t) ∧ s.resetReq = false ∧ s.errSeen = true := ⟨⟨_, rfl⟩, rfl, rfl⟩

theorem witness_ReleaseModeGoesOn :
    let s := waiting [] (b0 false)
    (∃ t, step s = .next t) ∧ s.resetReq = false ∧ s.debug = false := ⟨⟨_, rfl⟩, rfl, rfl⟩

/-- Nothing loaded; and the smallest view that is not in the store. -/
theorem witness_PrologueChecksBufferThenView :
    (Instr.subbuf ⟨129, 0⟩ 0 0).view = some ⟨129, 0⟩ ∧ (empty false).loaded = false
      ∧ (b0 false).loaded = true ∧ (b0 false).len < (129 : Half).toNat + (0 : Half).toNat := by
  decide

/-- Each clause at its boundary. -/
theorem witness_BadDescriptorRaisesBaddesc :
    (b0 false).Ready root ∧ (0 : Half).toNat = 0 ∧ 32 < (33 : Half).toNat ∧ 64 < (65 : Half).toNat
      ∧ 32 < (List.replicate 33 (0 : Half)).length ∧ 64 < (List.replicate 65 (0 : Half)).length
      ∧ ¬ (([3, 3] : List Half).map BitVec.toNat).Pairwise (· < ·) ∧ (4 : Half).toNat < (5 : Half).toNat := by
  decide

/-- Each clause at its boundary: one bit past the view. -/
theorem witness_IndexNotBelowViewLengthRaisesOob :
    (b0 false).Ready root ∧ root.vlen.toNat ≤ (128 : Half).toNat
      ∧ (1 ≤ (8 : Half).toNat ∧ (8 : Half).toNat ≤ 32 ∧ root.vlen.toNat < (121 : Half).toNat + (0 : Half).toNat + (8 : Half).toNat)
      ∧ (1 ≤ (64 : Half).toNat ∧ (64 : Half).toNat ≤ 64
          ∧ root.vlen.toNat < (65 : Half).toNat + (0 : Half).toNat + (64 : Half).toNat)
      ∧ (([120, 128] : List Half) ≠ [] ∧ ([120, 128] : List Half).length ≤ 32
          ∧ (([120, 128] : List Half).map BitVec.toNat).Pairwise (· < ·)
          ∧ ∃ d ∈ ([120, 128] : List Half), root.vlen.toNat ≤ (0 : Half).toNat + d.toNat)
      ∧ ((129 : Half).toNat ≤ (129 : Half).toNat ∧ root.vlen.toNat < (129 : Half).toNat)
      ∧ root.vlen.toNat < (121 : Half).toNat + 8 :=
  ⟨by decide, by decide, by decide, by decide, ⟨by decide, by decide, by decide, 128, by simp, by decide⟩, by decide,
    by decide⟩

theorem witness_LoadErrorsInPriority :
    (b0 false).port = .R ∧ ({ b0 false with port := .H } : State).port = .H ∧ (b0 false).loaded = true
      ∧ ((empty false).port = .H ∧ (empty false).loaded = false ∧ (empty false).cfg.capBits < (1025 : Half).toNat) := by
  decide

theorem witness_DiscardErrorsInPriority :
    (b0 false).port = .R ∧ (empty false).port = .H ∧ (empty false).loaded = false := by decide

theorem witness_GetAnswersTheIndexedBit : (b0 false).Ready root ∧ (127 : Half).toNat < root.vlen.toNat := by decide

/-- A field of 8 bits that ends exactly at the view's end, and one of 32 bits; also the premises of the short GETLONG. -/
theorem witness_GetintAnswersTheField :
    (b0 false).Ready root ∧ 1 ≤ (8 : Half).toNat ∧ (8 : Half).toNat ≤ 32
      ∧ (120 : Half).toNat + (0 : Half).toNat + (8 : Half).toNat ≤ root.vlen.toNat
      ∧ (32 : Half).toNat ≤ 32 ∧ (64 : Half).toNat + (32 : Half).toNat + (32 : Half).toNat ≤ root.vlen.toNat := by
  decide

theorem witness_GetlongAnswersTheField :
    (b0 false).Ready root ∧ 1 ≤ (64 : Half).toNat ∧ (64 : Half).toNat ≤ 64
      ∧ (64 : Half).toNat + (0 : Half).toNat + (64 : Half).toNat ≤ root.vlen.toNat := by
  decide

theorem witness_GetintxAnswersTheListedBits :
    (b0 false).Ready root ∧ ([112, 119] : List Half) ≠ [] ∧ ([112, 119] : List Half).length ≤ 32
      ∧ (([112, 119] : List Half).map BitVec.toNat).Pairwise (· < ·)
      ∧ ∀ d ∈ ([112, 119] : List Half), (8 : Half).toNat + d.toNat < root.vlen.toNat :=
  ⟨by decide, by decide, by decide, by decide, forall_mem_of_all (by decide)⟩

/-- Sixty-four indices. -/
theorem witness_GetlongxAnswersTheListedBits :
    let ds : List Half := (List.range 64).map fun k => BitVec.ofNat 16 (2 * k)
    (b0 false).Ready root ∧ ds ≠ [] ∧ ds.length ≤ 64 ∧ (ds.map BitVec.toNat).Pairwise (· < ·)
      ∧ ∀ d ∈ ds, (0 : Half).toNat + d.toNat < root.vlen.toNat :=
  ⟨by decide, by decide, by decide, by decide +kernel, forall_mem_of_all (by decide +kernel)⟩

theorem witness_ListCommandAnswersAsContiguous :
    ([12, 13, 14] : List Half).map BitVec.toNat = (List.range (3 : Half).toNat).map (fun k => (12 : Half).toNat + k) := by
  decide

theorem witness_ShortGetlongIsGetint :
    (b0 false).Ready root ∧ 1 ≤ (32 : Half).toNat ∧ (32 : Half).toNat ≤ 32
      ∧ (64 : Half).toNat + (32 : Half).toNat + (32 : Half).toNat ≤ root.vlen.toNat := by
  decide

/-- `B0` holds 0x11 in its first octet: read as a contiguous field and as a list. -/
theorem witness_StoredValueIsReadBack :
    let x : BitVec 64 := 0x11
    let ds : List Half := [0, 1, 2, 3, 4, 5, 6, 7]
    (b0 false).Ready root ∧ x.toNat < 2 ^ 8 ∧ (0 : Half).toNat + (0 : Half).toNat + 8 ≤ root.vlen.toNat
      ∧ (∀ j, j < 8 → (b0 false).bit (root.vbase.toNat + (0 : Half).toNat + (0 : Half).toNat + j) = x.getLsbD (8 - 1 - j))
      ∧ ds.length = 8 ∧ (ds.map BitVec.toNat).Pairwise (· < ·)
      ∧ (∀ d ∈ ds, (0 : Half).toNat + d.toNat < root.vlen.toNat)
      ∧ (∀ j, j < 8 → (b0 false).bit (root.vbase.toNat + (0 : Half).toNat + (ds.getD j 0).toNat) = x.getLsbD (8 - 1 - j)) :=
  ⟨by decide, by decide, by decide, by decide +kernel, rfl, by decide, forall_mem_of_all (by decide), by decide +kernel⟩

/-- Vector J1 of section 4, and a base offset moved by 3. -/
theorem witness_FieldsSplitAndJoin :
    (b0 false).Ready root
      ∧ (1 ≤ (16 : Half).toNat ∧ 1 ≤ (4 : Half).toNat ∧ (16 : Half).toNat + (4 : Half).toNat ≤ 64
          ∧ (20 : Half).toNat = (16 : Half).toNat + (4 : Half).toNat
          ∧ (32 : Half).toNat = (16 : Half).toNat + (16 : Half).toNat
          ∧ (0 : Half).toNat + (16 : Half).toNat + (16 : Half).toNat + (4 : Half).toNat ≤ root.vlen.toNat)
      ∧ (1 ≤ (64 : Half).toNat ∧ (64 : Half).toNat ≤ 64 ∧ (3 : Half).toNat = (0 : Half).toNat + (3 : Half).toNat
          ∧ (64 : Half).toNat = (61 : Half).toNat + (3 : Half).toNat
          ∧ (0 : Half).toNat + (3 : Half).toNat + (61 : Half).toNat + (64 : Half).toNat ≤ root.vlen.toNat) := by
  decide

/-- The empty view at the end. -/
theorem witness_SubbufAnswersTheNarrowerView :
    (b0 false).Ready root ∧ (b0 false).len ≤ 65535 ∧ (128 : Half).toNat ≤ (128 : Half).toNat
      ∧ (128 : Half).toNat ≤ root.vlen.toNat := by
  decide

/-- Through the slice `(64,40)`: its last bit, a contiguous field and a list that end there, and the length of the structure
at its start. -/
theorem witness_ChildViewReadsTheParentsBits :
    (b0 false).Ready root ∧ (b0 false).len ≤ 65535 ∧ (64 : Half).toNat ≤ (104 : Half).toNat
      ∧ (104 : Half).toNat ≤ root.vlen.toNat
      ∧ ((103 : Half).toNat = (39 : Half).toNat + (64 : Half).toNat ∧ (39 : Half).toNat < (subView root 64 104).vlen.toNat)
      ∧ (64 : Half).toNat = (0 : Half).toNat + (64 : Half).toNat
      ∧ (1 ≤ (24 : Half).toNat ∧ (24 : Half).toNat ≤ 32
          ∧ (0 : Half).toNat + (16 : Half).toNat + (24 : Half).toNat ≤ (subView root 64 104).vlen.toNat)
      ∧ (([0, 39] : List Half) ≠ [] ∧ (([0, 39] : List Half).map BitVec.toNat).Pairwise (· < ·)
          ∧ ([0, 39] : List Half).length ≤ 32
          ∧ ∀ d ∈ ([0, 39] : List Half), (0 : Half).toNat + d.toNat < (subView root 64 104).vlen.toNat)
      ∧ replyHead (exec (.getlen (subView root 64 104) 0) (b0 false)) = some 0x70000000 :=
  ⟨by decide, by decide, by decide, by decide, by decide, by decide, by decide,
    ⟨by decide, by decide, by decide, forall_mem_of_all (by decide)⟩, by decide +kernel⟩

/-- The example of R123. -/
theorem witness_SlicesCompose :
    (b0 false).Ready root ∧ (b0 false).len ≤ 65535 ∧ (64 : Half).toNat ≤ (104 : Half).toNat
      ∧ (104 : Half).toNat ≤ root.vlen.toNat ∧ (16 : Half).toNat ≤ (40 : Half).toNat
      ∧ (40 : Half).toNat ≤ (104 : Half).toNat - (64 : Half).toNat
      ∧ (80 : Half).toNat = (64 : Half).toNat + (16 : Half).toNat
      ∧ (104 : Half).toNat = (64 : Half).toNat + (40 : Half).toNat := by
  decide

/-- The example of R124, a structure of 5 octets at bit 64: its first bit past the end, a contiguous field and a list that go
past it. -/
theorem witness_SliceEnforcesTheDeclaredLength :
    (b0 false).Ready root ∧ (b0 false).len ≤ 65535 ∧ (104 : Half).toNat = (64 : Half).toNat + 8 * 5
      ∧ (104 : Half).toNat ≤ root.vlen.toNat
      ∧ (8 * 5 ≤ (40 : Half).toNat ∧ (104 : Half).toNat = (64 : Half).toNat + (40 : Half).toNat
          ∧ (104 : Half).toNat < root.vlen.toNat)
      ∧ (1 ≤ (32 : Half).toNat ∧ (32 : Half).toNat ≤ 32 ∧ 8 * 5 < (16 : Half).toNat + (32 : Half).toNat
          ∧ (64 : Half).toNat + (16 : Half).toNat + (32 : Half).toNat ≤ root.vlen.toNat)
      ∧ (([39, 40] : List Half) ≠ [] ∧ (([39, 40] : List Half).map BitVec.toNat).Pairwise (· < ·)
          ∧ ([39, 40] : List Half).length ≤ 32 ∧ (∃ d ∈ ([39, 40] : List Half), 8 * 5 ≤ d.toNat)
          ∧ ∀ d ∈ ([39, 40] : List Half), (64 : Half).toNat + d.toNat < root.vlen.toNat) :=
  ⟨by decide, by decide, by decide, by decide, by decide, by decide,
    ⟨by decide, by decide, by decide, ⟨40, by simp, by decide⟩, forall_mem_of_all (by decide)⟩⟩

/-- One structure of each kind: unknown (bit 120), fixed (104), length field (64), count table (0, count 3). -/
theorem witness_GetlenAnswersByKind :
    (b0 false).Ready root ∧ (120 : Half).toNat + 8 ≤ root.vlen.toNat
      ∧ ((0x0F : BitVec 8).toNat = (b0 false).fieldValue 8 (fun k => 0 + (120 + k)) ∧ cfgRef.kindOf 0x0F = .unknown)
      ∧ ((0x40 : BitVec 8).toNat = (b0 false).fieldValue 8 (fun k => 0 + (104 + k)) ∧ cfgRef.kindOf 0x40 = .fixed 3)
      ∧ ((0x21 : BitVec 8).toNat = (b0 false).fieldValue 8 (fun k => 0 + (64 + k))
          ∧ cfgRef.kindOf 0x21 = .lenField (.contig 10 6) ∧ ∀ d ∈ (FieldDesc.contig 10 6).indices, 64 + d < 128)
      ∧ ((0x11 : BitVec 8).toNat = (b0 false).fieldValue 8 (fun k => 0 + (0 + k))
          ∧ cfgRef.kindOf 0x11 = .countTable (.contig 13 3) 4 6 8 10
          ∧ (∀ d ∈ (FieldDesc.contig 13 3).indices, 0 + d < 128)
          ∧ 3 = (b0 false).fieldValue 3 (fun k => 0 + (0 + (FieldDesc.contig 13 3).indices.getD k 0))) := by
  decide +kernel

/-- The other counts, 1, 2, 4, 0 and 7, behind the count-table opcode 0x11. -/
theorem witness_GetlenAnswersByKind_counts :
    (twoOctets 0x11010000).Ready ⟨0, 16⟩ ∧ (0 : Half).toNat + 8 ≤ (16 : Half).toNat
      ∧ (0x11 : BitVec 8).toNat = (twoOctets 0x11010000).fieldValue 8 (fun k => 0 + (0 + k))
      ∧ (twoOctets 0x11010000).fieldValue 3 (fun k => 0 + (0 + (FieldDesc.contig 13 3).indices.getD k 0)) = 1
      ∧ (twoOctets 0x11020000).fieldValue 3 (fun k => 0 + (0 + (FieldDesc.contig 13 3).indices.getD k 0)) = 2
      ∧ (twoOctets 0x11040000).fieldValue 3 (fun k => 0 + (0 + (FieldDesc.contig 13 3).indices.getD k 0)) = 4
      ∧ (twoOctets 0x11000000).fieldValue 3 (fun k => 0 + (0 + (FieldDesc.contig 13 3).indices.getD k 0)) = 0
      ∧ (twoOctets 0x11070000).fieldValue 3 (fun k => 0 + (0 + (FieldDesc.contig 13 3).indices.getD k 0)) = 7 := by
  decide +kernel

/-- The length field of the structure at bit 64 through a view of 12 bits, and the count field of the one at bit 0 through
a view of 13 bits. -/
theorem witness_GetlenFieldOutsideTheViewRaisesOob :
    (b0 false).Ready ⟨64, 12⟩ ∧ (0 : Half).toNat + 8 ≤ (12 : Half).toNat
      ∧ (0x21 : BitVec 8).toNat = (b0 false).fieldValue 8 (fun k => (64 : Half).toNat + ((0 : Half).toNat + k))
      ∧ (b0 false).cfg.kindOf 0x21 = .lenField (.contig 10 6)
      ∧ (∃ d ∈ (FieldDesc.contig 10 6).indices, (12 : Half).toNat ≤ (0 : Half).toNat + d)
      ∧ (b0 false).Ready ⟨0, 13⟩ ∧ (0 : Half).toNat + 8 ≤ (13 : Half).toNat
      ∧ (0x11 : BitVec 8).toNat = (b0 false).fieldValue 8 (fun k => (0 : Half).toNat + ((0 : Half).toNat + k))
      ∧ (b0 false).cfg.kindOf 0x11 = .countTable (.contig 13 3) 4 6 8 10
      ∧ (∃ d ∈ (FieldDesc.contig 13 3).indices, (13 : Half).toNat ≤ (0 : Half).toNat + d) := by
  decide +kernel

/-- `CFG_REF` satisfies `WF_SRC`; a view of exactly two octets. -/
theorem witness_TwoOctetsSufficeWithoutCountTable :
    (b0 false).Ready ⟨64, 16⟩ ∧ (b0 false).cfg.wfSrc = true ∧ (0 : Half).toNat + 16 ≤ (16 : Half).toNat
      ∧ (0x21 : BitVec 8).toNat = (b0 false).fieldValue 8 (fun k => (64 : Half).toNat + ((0 : Half).toNat + k))
      ∧ ((b0 false).cfg.kindOf 0x21).isCountTable = false := by
  decide +kernel

/-- A confidence: `ConfT` has a first value, whatever its bound is. -/
def aConf : ConfT := ⟨0, by cases Config.confBound <;> simp [Option.all]⟩

/-- A LOAD of exactly the capacity, with as many confidences as bits; also the premises of `LoadIsTheMemWritesOfItsWords`. -/
theorem witness_LoadCreatesTheBuffer :
    let s : State := { empty false with sideband := List.replicate 1024 aConf }
    (Instr.load 1024 (List.replicate 32 0)).wf = true ∧ s.port = .H ∧ s.loaded = false
      ∧ (1024 : Half).toNat ≤ s.cfg.capBits ∧ (1024 : Half).toNat ≤ s.sideband.length := by
  decide +kernel

theorem witness_LoadIsTheMemWritesOfItsWords :
    (Instr.load 13 [0xA5FF0000]).wf = true ∧ (empty false).port = .H ∧ (empty false).loaded = false
      ∧ (13 : Half).toNat ≤ (empty false).cfg.capBits := by
  decide

theorem witness_DiscardEmptiesTheBlock :
    ({ b0 false with port := .H } : State).port = .H ∧ ({ b0 false with port := .H } : State).loaded = true := by decide

/-- A GETLEN that answers, and one that errs. -/
theorem witness_RequesterCommandsChangeNoData :
    (Instr.getlen root 0).view = some root ∧ replyHead (exec (.getlen root 0) (b0 false)) = some 0x70000000
      ∧ replyHead (exec (.getlen root 121) (b0 false)) = some 0x78000000 := by
  decide +kernel

/-- Two states that differ beyond `LEN`, in their error bits and in the port. -/
theorem witness_ResponseDependsOnLoadedBitsOnly :
    let s := b0 false
    let u : State := { b0 true with store := s.store ++ [(200, true)], errSeen := true, fcode := 8, port := .H }
    (Instr.get root 128).view = some root ∧ s.cfg = u.cfg ∧ s.loaded = u.loaded ∧ s.len = u.len
      ∧ ∀ a, a < s.len → s.bit a = u.bit a := by
  refine ⟨rfl, rfl, rfl, rfl, ?_⟩
  decide +kernel

theorem witness_LoadedBufferIsImmutable :
    let s := waiting [0x80000000, 0, 0] (b0 false)
    (∃ t, step s = .next t) ∧ s.resetReq = false ∧ s.loaded = true := ⟨⟨_, rfl⟩, rfl, rfl⟩

/-- A LOAD that arrives on the R-port. -/
theorem witness_RPortNeverChangesTheBuffer :
    ∃ t, acceptFrom .R ((empty false).offer .R ⟨[0x80000000, 0, 0], []⟩) = .next t := ⟨_, rfl⟩

theorem witness_ConfigurationNeverChanges :
    (∃ t, step race = .next t) ∧ race.resetReq = false ∧ ∃ t, step race.assertReset = .next t := by
  refine ⟨?_, rfl, ⟨_, rfl⟩⟩
  have h : race.arbitrate = some .H ∨ race.arbitrate = some .R := by
    show some (Config.arbiter 0) = _ ∨ some (Config.arbiter 0) = _
    cases Config.arbiter 0 <;> simp
  rcases h with h | h
  · exact ⟨_, by unfold step; rw [if_neg (by decide), if_neg (by decide), h]; rfl⟩
  · exact ⟨_, by unfold step; rw [if_neg (by decide), if_neg (by decide), h]; rfl⟩

/-- `B0` loaded satisfies the invariant, and so does a halted block whose response was sent. -/
theorem witness_inv : (b0 false).Inv where
  len_le_cap := by decide
  store_cells := by decide +kernel
  conf_wf := rfl
  conf_below := by simp [b0, empty, State.reset]
  empty_len := fun h => by cases h
  halted_iff := rfl
  no_error_codes := fun _ => ⟨rfl, rfl⟩
  error_code := fun h => by cases h
  err_seen_iff := rfl

theorem witness_EveryStepKeepsTheInvariant : (b0 false).Inv ∧ ∃ t, step (b0 false).assertReset = .next t :=
  ⟨witness_inv, ⟨_, rfl⟩⟩

theorem witness_LoadedBitsAreSpecified : (b0 false).Inv ∧ 127 < (b0 false).len := ⟨witness_inv, by decide⟩

theorem witness_RepeatedCommandRepeatsTheAnswer : (Instr.get root 128).view = some root := rfl

/-- One packet that is answered with code 0 and one that is not. -/
theorem witness_ErrseenStaysClearIffTheResponseIsOk :
    let s := waiting [0x90000000, 0, 0] { b0 false with port := .H }
    let u := waiting [0x90000000, 0, 0] (empty false)
    (s.errSeen = false ∧ s.resetReq = false ∧ s.halted = false ∧ s.arbitrate = some .H
        ∧ s.offers .H = [⟨[0x90000000, 0, 0], []⟩] ∧ replyHead (step s) = some 0x90000000)
      ∧ (u.errSeen = false ∧ u.resetReq = false ∧ u.halted = false ∧ u.arbitrate = some .H
        ∧ u.offers .H = [⟨[0x90000000, 0, 0], []⟩] ∧ replyHead (step u) = some 0x93000000) := by
  decide +kernel

/-- A run of one transaction, accepted and answered; the empty block answers a DISCARD with NOBUF. -/
theorem witness_EveryOfferedPacketIsAnsweredOrWaits :
    ∃ t, (empty false).Reaches [(.H, ⟨[0x90000000, 0, 0], []⟩)] t ∧ (empty false).EndsWell [(.H, ⟨[0x90000000, 0, 0], []⟩)] t :=
  have h := State.Reaches.step (.offer .H ⟨[0x90000000, 0, 0], []⟩ (.start (s := empty false))) rfl rfl
  ⟨_, h, h, fun p => by cases p <;> rfl, fun p => by cases p <;> rfl, rfl⟩

theorem witness_ReleaseModeRunsCanEndWell :
    (empty false).resetReq = false ∧ (empty false).halted = false ∧ (empty false).debug = false := ⟨rfl, rfl, rfl⟩

/-- The same run in debug mode ends badly. -/
theorem witness_ErrseenIsClearIffEveryResponseOfTheRunIsOk :
    (empty true).errSeen = false ∧ (empty true).halted = false
      ∧ ∃ t, (empty true).EndsBadly [(.H, ⟨[0x90000000, 0, 0], []⟩)] t :=
  have h := State.Reaches.step (.offer .H ⟨[0x90000000, 0, 0], []⟩ (.start (s := empty true))) rfl rfl
  ⟨rfl, rfl, _, h, rfl⟩

end Sys2Proof.Tests
end

section
/-! The scope of the block (spec/00_scope.md R10, R11, R14): a step runs the decoded command of the packet it accepts, a
requester command is a pure query of the loaded bits, and nothing but a DISCARD or a reset ends the life of a buffer. -/

namespace Sys2Proof.Machine

/-! ## A step runs the decoded command (R10, R83) -/

/-- The frame of acceptance: `STATUS` is not touched. -/
@[simp] theorem State.take_status (s : State) (p : Port) (o : Offer) : (s.take p o).status = s.status := rfl

/-- Settles O7, by the step lemma of acceptance and the frame of `take`. -/
theorem stepRunsTheDecodedCommand : Obligations.StepRunsTheDecodedCommand := by
  intro s p o rest i hreset hhalted harb hoffers hdecode
  have hstep : step s = exec i (s.take p o) :=
    (step_accept hreset hhalted harb hoffers).trans (runPacket_ok hdecode _)
  have hserved : (s.take p o).offers p = rest := by rw [State.take_offers hoffers, if_pos rfl]
  have hother : ∀ q, q ≠ p → (s.take p o).offers q = s.offers q := fun q hq => by
    rw [State.take_offers hoffers, if_neg hq]
  exact ⟨hstep, hserved, hother, rfl, rfl, rfl, rfl, rfl, s.take_status p o, rfl, rfl⟩

/-! ## The effects of a requester command (R11, R166, R167) -/

/-- The end of a requester command, said once: one response and no data changed; with code 0 the error bits stay, with
another code they are those of error entry. -/
theorem State.answer_effects (i : Instr) (result : Except ErrCode (Word × Word)) (s : State) :
    ∃ r, s.Sends (s.answer i result) r ∧ s.SameData (s.answer i result)
      ∧ (r.code = 0 → s.SameFlags (s.answer i result))
      ∧ (r.code ≠ 0 → (s.answer i result).errSeen = true ∧ (s.answer i result).halted = (s.halted || s.debug)
          ∧ (s.answer i result).fcode = (if s.errSeen then s.fcode else r.code)
          ∧ (s.answer i result).fop = (if s.errSeen then s.fop else i.op)) := by
  cases result with
  | ok payload =>
    rw [State.answer_ok]
    exact ⟨_, s.respond_sends _ _ _ _, s.respond_sameData _ _ _ _, fun _ => s.respond_sameFlags _ _ _ _,
      fun hcode => absurd (Response.code_mk _ _ _ _) hcode⟩
  | error e =>
    rw [State.answer_error]
    refine ⟨_, s.raise_sends e _ _, s.raise_sameData _ _ _, fun hcode => ?_, fun _ => ?_⟩
    · rw [Response.code_mk] at hcode
      exact absurd hcode e.code_ne_zero
    · rw [Response.code_mk]
      exact ⟨rfl, rfl, rfl, rfl⟩

/-- Settles O43: a requester command ends in `answer`, whose effects are listed once. -/
theorem requesterCommandsChangeNoData : Obligations.RequesterCommandsChangeNoData := by
  intro s i v hview
  obtain ⟨result, hexec⟩ := exec_requester i hview s
  obtain ⟨r, heffects⟩ := s.answer_effects i result
  exact ⟨_, r, hexec, heffects⟩

/-! ## What a requester command can observe (R11, R50)

The state enters a command's result through the prologue, the bits of a view that passed it, and the configuration. Each
of these is the same in two states that agree on what is loaded, and so is everything made of them. -/

/-- Two states agree on the configuration and on what is loaded: `LOADED`, `LEN` and the bits below `LEN`. -/
structure State.SameBuffer (s s' : State) : Prop where
  cfg : s.cfg = s'.cfg
  loaded : s.loaded = s'.loaded
  len : s.len = s'.len
  bit : ∀ a, a < s.len → s.bit a = s'.bit a

section
variable {s s' : State} {v : View}

/-- The loaded bits, as the error payload takes them (R169). -/
theorem State.SameBuffer.contents (h : s.SameBuffer s') : s.contents = s'.contents := by
  unfold State.contents
  rw [← h.len]
  exact List.map_congr_left fun a ha => h.bit a (List.mem_range.mp ha)

theorem State.SameBuffer.errorPayload (h : s.SameBuffer s') (ws : List Word) :
    s.errorPayload ws = s'.errorPayload ws := by
  rw [State.errorPayload, State.errorPayload, h.contents, h.len]

theorem State.SameBuffer.prologue (h : s.SameBuffer s') (v : View) : s.prologue v = s'.prologue v := by
  rw [State.prologue, State.prologue, State.viewValid, State.viewValid, h.loaded, h.len]

/-- What follows the prologue matters only where the view is ready. -/
theorem State.SameBuffer.prologue_bind {α : Type} (h : s.SameBuffer s') {f g : Except ErrCode α}
    (hfg : s.Ready v → f = g) : (s.prologue v >>= fun _ => f) = (s'.prologue v >>= fun _ => g) := by
  rw [← h.prologue v]
  rcases s.prologue_cases v with ⟨hready, -⟩ | ⟨-, herr⟩ | ⟨-, -, herr⟩
  · rw [hfg hready]
  · rw [herr]; rfl
  · rw [herr]; rfl

/-- A bit of a ready view is a loaded bit. -/
theorem State.SameBuffer.view_bit (h : s.SameBuffer s') (hready : s.Ready v) {i : Nat} (hi : i < v.vlen.toNat) :
    s.bit (v.vbase.toNat + i) = s'.bit (v.vbase.toNat + i) := by
  obtain ⟨-, hvalid⟩ := hready
  exact h.bit _ (by omega)

/-- Extraction reads bits of the view only: an index outside it is an error, whatever the state (R50, R95). -/
theorem State.SameBuffer.extract (h : s.SameBuffer s') (hready : s.Ready v) (w : Nat) (idx : List Nat) :
    s.extract w v idx = s'.extract w v idx := by
  rcases s.extract_cases w v idx with ⟨hin, hs⟩ | ⟨hout, hs⟩
  · rw [hs, State.extract_ok hin, List.map_congr_left fun i hi => h.view_bit hready (hin i hi)]
  · rw [hs, State.extract_oob hout]

theorem State.SameBuffer.field (h : s.SameBuffer s') (w : Nat) (v : View) (idx : Except ErrCode (List Nat)) :
    s.field w v idx = s'.field w v idx :=
  h.prologue_bind fun hready => congrArg (idx >>= ·) (funext fun is => h.extract hready w is)

/-! ### The parts of GETLEN -/

theorem State.SameBuffer.tableField (h : s.SameBuffer s') (hready : s.Ready v) (b : Nat) (fd : FieldDesc) :
    s.tableField v b fd = s'.tableField v b fd :=
  congrArg (resolveDesc b 16 fd >>= ·) (funext fun is => h.extract hready 32 is)

theorem State.SameBuffer.opcodeAt (h : s.SameBuffer s') (hready : s.Ready v) (b : Nat) :
    s.opcodeAt v b = s'.opcodeAt v b := by
  unfold State.opcodeAt
  rw [funext fun is => h.extract hready 32 is]

theorem State.SameBuffer.lengthByKind (h : s.SameBuffer s') (hready : s.Ready v) (b : Nat) (opc : BitVec 8)
    (kind : LenKind) : s.lengthByKind v b opc kind = s'.lengthByKind v b opc kind := by
  cases kind with
  | unknown => rfl
  | fixed l => rfl
  | lenField fd => rw [State.lengthByKind, State.lengthByKind, h.tableField hready]
  | countTable fd t1 t2 t3 t4 => rw [State.lengthByKind, State.lengthByKind, h.tableField hready]

/-! ### The seven results -/

theorem State.SameBuffer.getResult (h : s.SameBuffer s') (v : View) (i : Half) :
    getResult v i s = getResult v i s' := by
  refine h.prologue_bind fun hready => ?_
  by_cases hi : v.vlen.toNat ≤ i.toNat
  · rw [if_pos hi, if_pos hi]
  · rw [h.view_bit hready (Nat.lt_of_not_le hi)]

theorem State.SameBuffer.subbufResult (h : s.SameBuffer s') (v : View) (st e : Half) :
    subbufResult v st e s = subbufResult v st e s' :=
  h.prologue_bind fun _ => rfl

theorem State.SameBuffer.getlenResult (h : s.SameBuffer s') (v : View) (b : Half) :
    getlenResult v b s = getlenResult v b s' := by
  refine h.prologue_bind fun hready => ?_
  rw [h.opcodeAt hready, h.cfg]
  exact congrArg _ (funext fun opc => by rw [h.lengthByKind hready])

/-- Run in two such states, a requester command ends in the same result. -/
theorem State.SameBuffer.exec_requester (h : s.SameBuffer s') (i : Instr) (hview : i.view = some v) :
    ∃ result, exec i s = .next (s.answer i result) ∧ exec i s' = .next (s'.answer i result) := by
  cases i with
  | get v idx => exact ⟨Machine.getResult v idx s', by rw [← h.getResult]; rfl, rfl⟩
  | getint v b st l => exact ⟨getintResult v b st l s', by rw [getintResult, ← h.field]; rfl, rfl⟩
  | getlong v b st l => exact ⟨getlongResult v b st l s', by rw [getlongResult, ← h.field]; rfl, rfl⟩
  | getintx v b ds => exact ⟨getintxResult v b ds s', by rw [getintxResult, ← h.field]; rfl, rfl⟩
  | getlongx v b ds => exact ⟨getlongxResult v b ds s', by rw [getlongxResult, ← h.field]; rfl, rfl⟩
  | subbuf v st e => exact ⟨Machine.subbufResult v st e s', by rw [← h.subbufResult]; rfl, rfl⟩
  | getlen v b => exact ⟨Machine.getlenResult v b s', by rw [← h.getlenResult]; rfl, rfl⟩
  | load n data => cases hview
  | discard => cases hview

/-- The same result is sent as the same response, the payload of an error included (R169). -/
theorem State.SameBuffer.answer_sends (h : s.SameBuffer s') (i : Instr) (result : Except ErrCode (Word × Word)) :
    ∃ r, s.Sends (s.answer i result) r ∧ s'.Sends (s'.answer i result) r := by
  cases result with
  | ok payload => exact ⟨_, s.respond_sends _ _ _ _, s'.respond_sends _ _ _ _⟩
  | error e =>
    refine ⟨_, s.raise_sends e i.op (encode i), ?_⟩
    rw [h.errorPayload]
    exact s'.raise_sends e i.op (encode i)

end

/-- Settles O44: the two states agree on everything the result and the error payload are made of. -/
theorem responseDependsOnLoadedBitsOnly : Obligations.ResponseDependsOnLoadedBitsOnly := by
  intro s s' i v hview hcfg hloaded hlen hbit
  have h : s.SameBuffer s' := ⟨hcfg, hloaded, hlen, hbit⟩
  obtain ⟨result, hs, hs'⟩ := h.exec_requester i hview
  obtain ⟨r, hr, hr'⟩ := h.answer_sends i result
  exact ⟨_, _, r, hs, hs', hr, hr'⟩

/-! ## The life of a loaded buffer (R14, R150) -/

/-- On a loaded block a packet leaves all data, or is a DISCARD that arrived on the H-port. -/
theorem runPacket_loaded (ws : List Word) {s t : State} (hloaded : s.loaded = true) (hrun : runPacket ws s = .next t) :
    s.SameData t ∨ (s.port = .H ∧ decode ws = .ok .discard ∧ t.loaded = false) := by
  rcases runPacket_cases ws s with ⟨op, w1, w2, h⟩ | ⟨e, op, packet, h⟩ | ⟨n, data, -, -, hempty, -⟩ | ⟨hd, hport, -, h⟩
  · cases h.symm.trans hrun
    exact .inl (s.respond_sameData op 0 w1 w2)
  · cases h.symm.trans hrun
    exact .inl (s.raise_sameData e op packet)
  · rw [hloaded] at hempty
    cases hempty
  · cases h.symm.trans hrun
    exact .inr ⟨hport, hd, rfl⟩

/-- Settles O45, by the cases of a step: waiting changes nothing, and an accepted packet runs on a loaded block. -/
theorem loadedBufferIsImmutable : Obligations.LoadedBufferIsImmutable := by
  intro s t hstep hreset hloaded
  rcases step_cases s with ⟨hreq, -⟩ | ⟨-, -, hstuck⟩ | ⟨-, -, -, -, hidle⟩ | ⟨p, o, rest, -, -, harb, hoffers, hrun⟩
  · rw [hreset] at hreq
    cases hreq
  · cases hstuck.symm.trans hstep
  · cases hidle.symm.trans hstep
    exact .inl ⟨rfl, rfl, rfl, hloaded, rfl⟩
  · rcases runPacket_loaded o.words (s := s.take p o) hloaded (hrun.symm.trans hstep) with hsame | ⟨hport, hd, ht⟩
    · exact .inl ⟨hsame.store, hsame.conf, hsame.len, hsame.loaded.trans hloaded, hsame.epoch⟩
    · cases (hport : p = .H)
      exact .inr ⟨o, rest, harb, hoffers, hd, ht⟩

end Sys2Proof.Machine
end

section
/-! The architectural state (spec/10_state.md R23 to R27, R33): the layout of `STATUS`, and the invariant of the machine,
which holds after reset and which every step keeps. -/

namespace Sys2Proof.Machine

/-! ## The layout of STATUS (R27) -/

/-- The number a flag's bit stands for. -/
theorem bit1_toNat (b : Bool) : (bit1 b).toNat = b.toNat := BitVec.toNat_ofBool b

/-- `STATUS` as a number: each field times the weight of its lowest bit; `LEN` is cut to 16 bits. -/
theorem State.status_toNat (s : State) :
    s.status.toNat = s.len % 2 ^ 16 * 2 ^ 16 + s.fop.toNat * 2 ^ 8 + s.fcode.toNat * 2 ^ 4 + Bool.toNat s.errSeen * 2 ^ 3
      + Bool.toNat s.halted * 2 ^ 2 + Bool.toNat s.debug * 2 + Bool.toNat s.loaded := by
  change (BitVec.ofNat 16 s.len ++ 0#4 ++ s.fop ++ s.fcode ++ bit1 s.errSeen ++ bit1 s.halted ++ bit1 s.debug
    ++ bit1 s.loaded).toNat = _
  simp only [toNat_append_add, bit1_toNat, BitVec.toNat_ofNat]
  omega

/-- A bit of a word, read off the word's number. -/
theorem getLsbD_of_div_mod {w : Word} {i : Nat} {b : Bool} (h : w.toNat / 2 ^ i % 2 = b.toNat) : w.getLsbD i = b := by
  rw [← BitVec.testBit_toNat, Nat.testBit_eq_decide_div_mod_eq, h]
  cases b <;> rfl

/-- A field of a word, read off the word's number. -/
theorem extractLsb'_of_div_mod {w : Word} {i n : Nat} {x : BitVec n} (h : w.toNat / 2 ^ i % 2 ^ n = x.toNat) :
    w.extractLsb' i n = x := by
  apply BitVec.eq_of_toNat_eq
  rw [BitVec.extractLsb'_toNat, Nat.shiftRight_eq_div_pow, h]

/-- Settles O14: every field is read off the number of `STATUS`, where the fields below it are less than its weight. -/
theorem statusWordHasEveryFieldInPlace : Obligations.StatusWordHasEveryFieldInPlace := by
  intro s
  have hnum := s.status_toNat
  have hfop := s.fop.isLt
  have hfcode := s.fcode.isLt
  have herr := Bool.toNat_le s.errSeen
  have hhalted := Bool.toNat_le s.halted
  have hdebug := Bool.toNat_le s.debug
  have hloaded := Bool.toNat_le s.loaded
  refine ⟨getLsbD_of_div_mod ?loaded, getLsbD_of_div_mod ?debug, getLsbD_of_div_mod ?halted,
    getLsbD_of_div_mod ?errSeen, extractLsb'_of_div_mod ?fcode, extractLsb'_of_div_mod ?fop,
    extractLsb'_of_div_mod ?reserved, fun hlen => ?len⟩
  case len =>
    have hfield : s.status.extractLsb' 16 16 = BitVec.ofNat 16 s.len :=
      extractLsb'_of_div_mod (by rw [BitVec.toNat_ofNat]; omega)
    rw [hfield, BitVec.toNat_ofNat, Nat.mod_eq_of_lt (by omega)]
  case reserved =>
    rw [BitVec.toNat_ofNat]
    omega
  all_goals omega

/-! ## The invariant after reset (R33, R192) -/

/-- With any configuration, strap and counters, the values of R33 have the invariant. -/
theorem State.inv_reset_with (cfg : Cfg) (strap debug : Bool) (turns epoch : Nat) :
    State.Inv { State.reset with cfg := cfg, strap := strap, debug := debug, turns := turns, epoch := epoch } where
  len_le_cap := Nat.zero_le _
  store_cells := rfl
  conf_wf := rfl
  conf_below := fun _ hc => absurd hc List.not_mem_nil
  empty_len := fun _ => rfl
  halted_iff := (Bool.and_false debug).symm
  no_error_codes := fun _ => ⟨rfl, rfl⟩
  error_code := fun herr => by cases herr
  err_seen_iff := rfl

/-- Settles O49: the state after the first reset is one of these. -/
theorem resetHasTheInvariant : Obligations.ResetHasTheInvariant :=
  State.inv_reset_with Config.cfg Config.debugStrap Config.debugStrap 0 0

/-- So is the state after any later reset, whatever the state before it was (R190, R193). -/
theorem State.inv_applyReset (s : State) : s.applyReset.Inv :=
  State.inv_reset_with s.cfg s.strap s.strap s.turns (s.epoch + 1)

/-! ## The cells a LOAD writes into an EMPTY block (R23, R25, R151) -/

section
variable {α : Type}

/-- The cells of a run written where nothing was listed are the run. -/
theorem Cells.writeRun_nil (a : Nat) (vs : List α) : Cells.writeRun a vs [] = Cells.runFrom a vs := by
  simp [Cells.writeRun]

/-- The addresses of such a run from 0 on are those below its length. -/
theorem Cells.writeRun_zero_nil_keys (vs : List α) :
    (Cells.writeRun 0 vs []).map Prod.fst = List.range vs.length := by
  rw [Cells.writeRun_nil, Cells.runFrom_keys]
  simp

end

theorem loadBits_length (n : Nat) (data : List Word) : (loadBits n data).length = n := by simp [loadBits]

/-! ## What every operation does to the invariant -/

section
variable {s t : State}

/-- The record of what was sent grows by the response and nothing else, on whichever port it went out. -/
theorem State.Sends.any_sent {r : Response} (h : s.Sends t r) (f : Response → Bool) :
    (t.hOut ++ t.rOut).any f = ((s.hOut ++ s.rOut).any f || f r) := by
  obtain ⟨hH, hR⟩ := h
  rw [hH, hR]
  cases s.port with
  | H => simp [Bool.or_assoc, Bool.or_comm (f r)]
  | R => simp [Bool.or_assoc]

/-- An EMPTY block with the invariant lists no cell of the store and no confidence (R150). -/
theorem State.Inv.cells_of_empty (h : s.Inv) (hempty : s.loaded = false) : s.store = [] ∧ s.conf = [] := by
  have hlen : s.len = 0 := h.empty_len hempty
  constructor
  · have hkeys := h.store_cells
    rw [hlen] at hkeys
    exact List.map_eq_nil_iff.mp hkeys
  · refine List.eq_nil_iff_forall_not_mem.mpr fun c hc => ?_
    have hbelow := h.conf_below c hc
    omega

/-- Acceptance touches nothing the invariant speaks of. -/
theorem State.Inv.take (h : s.Inv) (p : Port) (o : Offer) : (s.take p o).Inv :=
  ⟨h.len_le_cap, h.store_cells, h.conf_wf, h.conf_below, h.empty_len, h.halted_iff, h.no_error_codes, h.error_code,
    h.err_seen_iff⟩

/-- A response with code 0 adds no error to the record. -/
theorem State.Inv.respond_ok (h : s.Inv) (op : Nibble) (w1 w2 : Word) : (s.respond op 0 w1 w2).Inv :=
  { h with
    err_seen_iff := by
      rw [(s.respond_sends op 0 w1 w2).any_sent, ← h.err_seen_iff, Response.code_mk]
      simp }

/-- Error entry records its code and halts the block exactly in debug mode (R167, R168). -/
theorem State.Inv.raise (h : s.Inv) (e : ErrCode) (op : Nibble) (ws : List Word) : (s.raise e op ws).Inv :=
  { h with
    halted_iff := by
      rw [State.raise_halted, State.raise_debug, State.raise_errSeen, h.halted_iff]
      cases s.debug <;> simp
    no_error_codes := fun hclear => by cases hclear
    error_code := fun _ => by
      rw [State.raise_fcode]
      cases hseen : s.errSeen with
      | false => exact e.code_le
      | true => exact h.error_code hseen
    err_seen_iff := by
      have hcode : decide (e.code ≠ 0) = true := decide_eq_true e.code_ne_zero
      rw [(s.raise_sends e op ws).any_sent, Response.code_mk, State.raise_errSeen, hcode, Bool.or_true] }

/-- A LOAD into an EMPTY block that fits specifies exactly the cells below the new `LEN` (R23, R24, R25, R151). -/
theorem State.Inv.install (h : s.Inv) {n : Nat} (data : List Word) (hempty : s.loaded = false)
    (hcap : n ≤ s.cfg.capBits) : (s.install n data).Inv :=
  have ⟨hstore, hconf⟩ := h.cells_of_empty hempty
  { h with
    len_le_cap := hcap
    store_cells := by
      rw [State.install_store, hstore, Cells.writeRun_zero_nil_keys, loadBits_length, State.install_len]
    conf_wf := Cells.wf_writeRun 0 _ s.conf h.conf_wf
    conf_below := fun c hc => by
      have hkey := List.mem_map_of_mem (f := Prod.fst) hc
      rw [State.install_conf, hconf, Cells.writeRun_zero_nil_keys, List.mem_range, List.length_take] at hkey
      exact lt_of_lt_of_le hkey (min_le_left _ _)
    empty_len := fun hload => by cases hload }

/-- A DISCARD leaves an EMPTY block and does not touch the error bits (R153). -/
theorem State.Inv.drop (h : s.Inv) : s.drop.Inv :=
  { h with
    len_le_cap := Nat.zero_le _
    store_cells := rfl
    conf_wf := rfl
    conf_below := fun _ hc => absurd hc List.not_mem_nil
    empty_len := fun _ => rfl }

/-- Running an accepted packet keeps the invariant, by the four things it can do. -/
theorem State.Inv.runPacket {ws : List Word} (h : s.Inv) (hrun : runPacket ws s = .next t) : t.Inv := by
  rcases runPacket_cases ws s with ⟨op, w1, w2, hok⟩ | ⟨e, op, packet, herr⟩ | ⟨n, data, -, -, hempty, hcap, hload⟩
    | ⟨-, -, -, hdiscard⟩
  · cases hok.symm.trans hrun
    exact h.respond_ok op w1 w2
  · cases herr.symm.trans hrun
    exact h.raise e op packet
  · cases hload.symm.trans hrun
    exact (h.install data hempty hcap).respond_ok _ _ _
  · cases hdiscard.symm.trans hrun
    exact h.drop.respond_ok _ _ _

end

/-- Settles O48, by the cases of a step: a reset, the stuck halted block, waiting, or the run of an accepted packet. -/
theorem everyStepKeepsTheInvariant : Obligations.EveryStepKeepsTheInvariant := by
  intro s t h hstep
  rcases step_cases s with ⟨-, hreset⟩ | ⟨-, -, hstuck⟩ | ⟨-, -, -, -, hidle⟩ | ⟨p, o, rest, -, -, -, -, hrun⟩
  · cases hreset.symm.trans hstep
    exact s.inv_applyReset
  · cases hstuck.symm.trans hstep
  · cases hidle.symm.trans hstep
    exact h
  · exact (h.take p o).runPacket (hrun.symm.trans hstep)

end Sys2Proof.Machine
end

section
/-! The bit store (spec/20_memory.md R50, spec/10_state.md R23, R24): under the invariant the cells with a specified value
are the loaded ones, so what the specification leaves open below `LEN` is nothing. -/

namespace Sys2Proof

/-! ## The capacity (R6, R24) -/

theorem Cfg.capBits_le (c : Cfg) : c.capBits ≤ 65535 := by
  have hok := c.ok
  rw [Cfg.check, Bool.and_eq_true] at hok
  obtain ⟨hcap, -⟩ := hok
  exact of_decide_eq_true hcap

namespace Machine

/-! ## Reading a cell (R8, R23) -/

section
variable {s : State}

/-- A cell with a specified value holds it: the free bit of a cell without one does not enter. -/
theorem State.bit_of_read {a : Nat} {x : Bool} (h : Cells.read s.store a = some x) : s.bit a = x := by
  simp only [State.bit, h]

/-! ## What the invariant says of the store -/

theorem State.Inv.len_le (h : s.Inv) : s.len ≤ 65535 := h.len_le_cap.trans s.cfg.capBits_le

/-- The addresses `0 .. LEN-1` in order are strictly rising. -/
theorem State.Inv.store_wf (h : s.Inv) : Memory.wf s.store = true := by
  refine (Cells.wf_iff s.store).mpr ?_
  rw [h.store_cells]
  exact List.pairwise_lt_range

/-- The cells without a specified value are exactly those from `LEN` on (R23). -/
theorem State.Inv.read_eq_none_iff (h : s.Inv) (a : Nat) : Cells.read s.store a = none ↔ s.len ≤ a := by
  rw [Cells.read_eq_none_iff, h.store_cells, List.mem_range, Nat.not_lt]

/-- Each loaded cell has a specified value, and that is the bit a command reads there (R50). -/
theorem State.Inv.read_of_lt (h : s.Inv) {a : Nat} (ha : a < s.len) : Cells.read s.store a = some (s.bit a) := by
  cases hread : Cells.read s.store a with
  | none => exact absurd ((h.read_eq_none_iff a).mp hread) (Nat.not_le.mpr ha)
  | some x => rw [State.bit_of_read hread]

end

/-- Settles O50, by what the invariant says of the store's addresses and the bound on the capacity. -/
theorem loadedBitsAreSpecified : Obligations.LoadedBitsAreSpecified := fun s h =>
  ⟨h.len_le, h.store_wf, fun a ha => ⟨s.bit a, h.read_of_lt ha, rfl⟩, fun a ha => (h.read_eq_none_iff a).mpr ha⟩

end Machine

end Sys2Proof
end

section
/-! The packet format (spec/30_encoding.md R71 to R77): the encoder and the decoder are inverse to each other, and the
packets without a command are the malformed ones of R77. -/

namespace Sys2Proof

/-! ## Decoding the packet of a command (R71 to R76) -/

/-- The packet of a well-formed command has the length its word 0 calls for, so only its fields are left to decode. -/
theorem decode_encode_eq_decodeFields {i : Instr} {w0 w1 w2 : Word} {ext : List Word}
    (hpacket : encode i = w0 :: w1 :: w2 :: ext) (hwords : Laws.EncodeWords.Statement i) (hwf : i.wf = true) :
    decode (encode i) = decodeFields w0 w1 w2 ext := by
  obtain ⟨hlength, -, -⟩ := hwords hwf
  rw [hpacket] at hlength ⊢
  exact decode_of_length w1 w2 hlength

/-- A list whose length fits the field `n` is read back from that field and its list words (R71, R74). -/
theorem listOperand_encoded {ds : List Half} (h : ds.length ≤ 255) :
    listOperand (BitVec.ofNat 8 ds.length).toNat (packHalves ds) = .ok ds := by
  rw [BitVec.toNat_ofNat, Nat.mod_eq_of_lt (by omega), listOperand_packHalves]

/-- Settles O1, command by command: the decoder finds in each field what the encoder wrote there. -/
theorem decodeOfEncodeIsTheCommand : Obligations.DecodeOfEncodeIsTheCommand := by
  intro i hwf
  have hrsv := rsvOf_headerWord
  have hop := opOf_headerWord
  cases i with
  | get v idx =>
    rw [decode_encode_eq_decodeFields rfl (Laws.EncodeWords.get v idx) hwf, decodeFields_get _ _ _ (hrsv ..) (hop ..)]
    simp
  | getint v b st l =>
    rw [decode_encode_eq_decodeFields rfl (Laws.EncodeWords.getint v b st l) hwf,
      decodeFields_getint _ _ _ (hrsv ..) (hop ..)]
    simp
  | getlong v b st l =>
    rw [decode_encode_eq_decodeFields rfl (Laws.EncodeWords.getlong v b st l) hwf,
      decodeFields_getlong _ _ _ (hrsv ..) (hop ..)]
    simp
  | getintx v b ds =>
    rw [decode_encode_eq_decodeFields rfl (Laws.EncodeWords.getintx v b ds) hwf,
      decodeFields_getintx _ _ _ (hrsv ..) (hop ..), countOf_headerWord, listOperand_encoded (of_decide_eq_true hwf)]
    simp [Except.map]
  | getlongx v b ds =>
    rw [decode_encode_eq_decodeFields rfl (Laws.EncodeWords.getlongx v b ds) hwf,
      decodeFields_getlongx _ _ _ (hrsv ..) (hop ..), countOf_headerWord, listOperand_encoded (of_decide_eq_true hwf)]
    simp [Except.map]
  | subbuf v st e =>
    rw [decode_encode_eq_decodeFields rfl (Laws.EncodeWords.subbuf v st e) hwf,
      decodeFields_subbuf _ _ _ (hrsv ..) (hop ..)]
    simp
  | getlen v b =>
    rw [decode_encode_eq_decodeFields rfl (Laws.EncodeWords.getlen v b) hwf, decodeFields_getlen _ _ _ (hrsv ..) (hop ..)]
    simp
  | load n data =>
    rw [decode_encode_eq_decodeFields rfl (Laws.EncodeWords.load n data) hwf, decodeFields_load _ _ _ (hrsv ..) (hop ..)]
    simp
  | discard =>
    rw [decode_encode_eq_decodeFields rfl Laws.EncodeWords.discard hwf, decodeFields_discard _ _ _ (hrsv ..) (hop ..)]
    simp

/-- Words that the encoder writes for a well-formed command decode to it. -/
theorem decode_of_encode_eq {i : Instr} {ws : List Word} (hwf : i.wf = true) (hws : encode i = ws) :
    decode ws = .ok i := by
  rw [← hws, decodeOfEncodeIsTheCommand i hwf]

/-- Settles O4: each list of words is what the encoder writes for its command. -/
theorem writtenOutWordsDecode : Obligations.WrittenOutWordsDecode :=
  ⟨decode_of_encode_eq rfl (by decide), decode_of_encode_eq rfl (by decide), decode_of_encode_eq rfl (by decide),
    decode_of_encode_eq rfl (by decide), decode_of_encode_eq rfl (by decide), decode_of_encode_eq rfl (by decide)⟩

/-! ## Inverting the decoder (R76, R77) -/

/-- A check of the decoder passes a command on exactly when the checked condition holds and the rest does so. -/
theorem check_eq_ok_iff {α ε : Type} {p : Prop} [Decidable p] {rest : Except ε α} {a : α} {e : ε} :
    (if p then rest else .error e) = .ok a ↔ p ∧ rest = .ok a := by
  split <;> simp [*]

/-- What a list operand is wrapped in is a command exactly when the operand is read. -/
theorem map_eq_ok_iff {α β ε : Type} {f : α → β} {x : Except ε α} {b : β} :
    x.map f = .ok b ↔ ∃ a, x = .ok a ∧ f a = b := by
  cases x <;> simp [Except.map]

/-- A word with `rsv` 0 is a header word (R71). -/
theorem exists_headerWord {w : Word} (h : rsvOf w = 0#4) : ∃ op n a, w = headerWord op n a :=
  ⟨_, _, _, (headerWord_fields w h).symm⟩

/-- A packet that decodes is a header word, two words and as many more as the header calls for. -/
theorem decode_eq_ok {ws : List Word} {i : Instr} (h : decode ws = .ok i) :
    ∃ op n a w1 w2 ext, ws = headerWord op n a :: w1 :: w2 :: ext
      ∧ ext.length + 3 = expectedWords (headerWord op n a) ∧ decodeFields (headerWord op n a) w1 w2 ext = .ok i := by
  match ws with
  | [] | [_] | [_, _] => cases h
  | w0 :: w1 :: w2 :: ext =>
    rw [decode, check_eq_ok_iff] at h
    obtain ⟨hlength, hfields⟩ := h
    have hrsv : rsvOf w0 = 0#4 := by
      by_contra hrsv
      rw [decodeFields_reservedField _ _ _ hrsv] at hfields
      cases hfields
    obtain ⟨op, n, a, rfl⟩ := exists_headerWord hrsv
    exact ⟨op, n, a, w1, w2, ext, rfl, hlength, hfields⟩

/-- A list operand that is read back fits the field `n`, and its list words are those of the packet (R74, R77). -/
theorem listOperand_inv {n : BitVec 8} {ext : List Word} {ds : List Half} (hext : ext.length = listWordCount n.toNat)
    (h : listOperand n.toNat ext = .ok ds) :
    ds.length ≤ 255 ∧ BitVec.ofNat 8 ds.length = n ∧ packHalves ds = ext := by
  obtain ⟨rfl, hpad⟩ := listOperand_ok h
  have hn := n.isLt
  have hlength : ((unpackHalves ext).take n.toNat).length = n.toNat := by
    rw [List.length_take, unpackHalves_length, hext, listWordCount]
    omega
  refine ⟨by omega, ?_, packHalves_of_unpackHalves ext _ hext hpad⟩
  rw [hlength, BitVec.ofNat_toNat, BitVec.setWidth_eq]

/-- Settles O2, by inverting the decoder: for each operation code, every field of the packet is an operand of the command
or was checked to be 0. -/
theorem encodeOfDecodeIsThePacket : Obligations.EncodeOfDecodeIsThePacket := by
  intro ws i hdecode
  obtain ⟨op, n, a, w1, w2, ext, rfl, hlength, h⟩ := decode_eq_ok hdecode
  rw [expectedWords_headerWord] at hlength
  have hrsv := rsvOf_headerWord op n a
  have hop := opOf_headerWord op n a
  rcases op_cases op with rfl | rfl | rfl | rfl | rfl | rfl | rfl | rfl | rfl | hreserved
  · simp only [decodeFields_get _ _ _ hrsv hop, check_eq_ok_iff, countOf_headerWord, loHalf_headerWord] at h
    obtain ⟨⟨rfl, rfl⟩, ⟨⟩⟩ := h
    obtain rfl : ext = [] := by simpa using hlength
    exact ⟨rfl, by simp [encode]⟩
  · simp only [decodeFields_getint _ _ _ hrsv hop, check_eq_ok_iff, countOf_headerWord, loHalf_headerWord] at h
    obtain ⟨rfl, ⟨⟩⟩ := h
    obtain rfl : ext = [] := by simpa using hlength
    exact ⟨rfl, by simp [encode]⟩
  · simp only [decodeFields_getlong _ _ _ hrsv hop, check_eq_ok_iff, countOf_headerWord, loHalf_headerWord] at h
    obtain ⟨rfl, ⟨⟩⟩ := h
    obtain rfl : ext = [] := by simpa using hlength
    exact ⟨rfl, by simp [encode]⟩
  · simp only [decodeFields_getintx _ _ _ hrsv hop, check_eq_ok_iff, map_eq_ok_iff, countOf_headerWord,
      loHalf_headerWord] at h
    obtain ⟨rfl, ds, hds, rfl⟩ := h
    obtain ⟨hwf, hcount, hwords⟩ := listOperand_inv (by simpa [Nat.add_comm] using hlength) hds
    exact ⟨decide_eq_true hwf, by simp [encode, hcount, hwords]⟩
  · simp only [decodeFields_getlongx _ _ _ hrsv hop, check_eq_ok_iff, map_eq_ok_iff, countOf_headerWord,
      loHalf_headerWord] at h
    obtain ⟨rfl, ds, hds, rfl⟩ := h
    obtain ⟨hwf, hcount, hwords⟩ := listOperand_inv (by simpa [Nat.add_comm] using hlength) hds
    exact ⟨decide_eq_true hwf, by simp [encode, hcount, hwords]⟩
  · simp only [decodeFields_subbuf _ _ _ hrsv hop, check_eq_ok_iff, countOf_headerWord, loHalf_headerWord] at h
    obtain ⟨⟨rfl, rfl⟩, ⟨⟩⟩ := h
    obtain rfl : ext = [] := by simpa using hlength
    exact ⟨rfl, by simp [encode]⟩
  · simp only [decodeFields_getlen _ _ _ hrsv hop, check_eq_ok_iff, countOf_headerWord, loHalf_headerWord] at h
    obtain ⟨⟨rfl, rfl⟩, ⟨⟩⟩ := h
    obtain rfl : ext = [] := by simpa using hlength
    exact ⟨rfl, by simp [encode]⟩
  · simp only [decodeFields_load _ _ _ hrsv hop, check_eq_ok_iff, countOf_headerWord, loHalf_headerWord] at h
    obtain ⟨⟨rfl, rfl, rfl⟩, ⟨⟩⟩ := h
    have hdata : ext.length = dataWordCount a.toNat := by simpa [Nat.add_comm] using hlength
    exact ⟨decide_eq_true hdata, rfl⟩
  · simp only [decodeFields_discard _ _ _ hrsv hop, check_eq_ok_iff, countOf_headerWord, loHalf_headerWord] at h
    obtain ⟨⟨rfl, rfl, rfl, rfl⟩, ⟨⟩⟩ := h
    obtain rfl : ext = [] := by simpa using hlength
    exact ⟨rfl, rfl⟩
  · rw [decodeFields_reservedOp _ _ _ hrsv (by rwa [hop])] at h
    cases h

/-! ## The malformed packets (R77) -/

/-- A check of the decoder lets a packet fail exactly when the checked condition does not hold or the rest fails. -/
theorem exists_check_eq_error_iff {α ε : Type} {p : Prop} [Decidable p] {rest : Except ε α} {e : ε} :
    (∃ m, (if p then rest else .error e) = .error m) ↔ ¬ p ∨ ∃ m, rest = .error m := by
  split <;> simp [*]

/-- What a list operand is wrapped in fails exactly when the operand does. -/
theorem exists_map_eq_error_iff {α β ε : Type} {f : α → β} {x : Except ε α} :
    (∃ m, x.map f = .error m) ↔ ∃ m, x = .error m := by
  cases x <;> simp [Except.map]

/-- The halves past the first `n` of the list words that end a packet: none for even `n`, for odd `n` the low half of the
packet's last word. -/
theorem drop_unpackHalves (front : List Word) {n : Nat} {ext : List Word} (hext : ext.length = listWordCount n) :
    (unpackHalves ext).drop n = if n % 2 = 1 then [loHalf ((front ++ ext).getLastD 0)] else [] := by
  have hlength := unpackHalves_length ext
  unfold listWordCount at hext
  split
  · obtain rfl | ⟨init, last, rfl⟩ := List.eq_nil_or_concat ext
    · rw [List.length_nil] at hext
      omega
    · rw [List.concat_eq_append] at hext ⊢
      have hsplit : unpackHalves (init ++ [last]) = unpackHalves init ++ [hiHalf last, loHalf last] := by
        simp [unpackHalves]
      have hn : n = (unpackHalves init).length + 1 := by
        rw [unpackHalves_length]
        rw [List.length_append, List.length_singleton] at hext
        omega
      simp [hsplit, hn, List.drop_append]
  · exact List.drop_eq_nil_of_le (by omega)

/-- A list operand fails exactly when `n` is odd and the unused half of the packet's last word is not 0. -/
theorem exists_listOperand_eq_error_iff (front : List Word) {n : Nat} {ext : List Word}
    (hext : ext.length = listWordCount n) :
    (∃ m, listOperand n ext = .error m) ↔ n % 2 = 1 ∧ loHalf ((front ++ ext).getLastD 0) ≠ 0#16 := by
  rw [listOperand, drop_unpackHalves front hext, exists_check_eq_error_iff]
  split <;> simp [*]

/-- The words a packet has beyond three, read off the numbers in word 0 (R76). -/
theorem expectedWords_eq (w0 : Word) : expectedWords w0 = 3 +
    (if (opOf w0).toNat = 4 ∨ (opOf w0).toNat = 5 then ((countOf w0).toNat + 1) / 2
      else if (opOf w0).toNat = 8 then ((loHalf w0).toNat + 31) / 32 else 0) := by
  simp only [expectedWords, ← BitVec.toNat_inj, listWordCount, dataWordCount, BitVec.toNat_ofNat]
  split_ifs <;> rfl

/-- The list words of a packet of the right length, for the two commands that carry a list. -/
theorem length_eq_listWordCount {w0 : Word} {ext : List Word} (hlength : ext.length + 3 = expectedWords w0)
    (hop : opOf w0 = 4#4 ∨ opOf w0 = 5#4) : ext.length = listWordCount (countOf w0).toNat := by
  rw [expectedWords, if_pos hop] at hlength
  omega

theorem toNat_eq_zero_iff {k : Nat} (x : BitVec k) : x.toNat = 0 ↔ x = 0 := by
  rw [← BitVec.toNat_inj]
  rfl

/-- A packet of the right length is malformed exactly when a field condition of R77 holds. -/
theorem exists_decodeFields_eq_error_iff {w0 : Word} (w1 w2 : Word) {ext : List Word}
    (hlength : ext.length + 3 = expectedWords w0) :
    (∃ m, decodeFields w0 w1 w2 ext = .error m) ↔
      (opOf w0).toNat = 0 ∨ 10 ≤ (opOf w0).toNat
      ∨ (rsvOf w0).toNat ≠ 0
      ∨ (¬ ((opOf w0).toNat = 4 ∨ (opOf w0).toNat = 5) ∧ (countOf w0).toNat ≠ 0)
      ∨ (((opOf w0).toNat = 6 ∨ (opOf w0).toNat = 9) ∧ (loHalf w0).toNat ≠ 0)
      ∨ (((opOf w0).toNat = 8 ∨ (opOf w0).toNat = 9) ∧ w1 ≠ 0)
      ∨ (¬ ((opOf w0).toNat = 2 ∨ (opOf w0).toNat = 3 ∨ (opOf w0).toNat = 6) ∧ w2 ≠ 0)
      ∨ (((opOf w0).toNat = 4 ∨ (opOf w0).toNat = 5) ∧ (countOf w0).toNat % 2 = 1
          ∧ loHalf ((w0 :: w1 :: w2 :: ext).getLastD 0) ≠ 0#16) := by
  by_cases hrsv : rsvOf w0 = 0#4
  · rcases op_cases (opOf w0) with hop | hop | hop | hop | hop | hop | hop | hop | hop | hop
    · rw [decodeFields_get _ _ _ hrsv hop, exists_check_eq_error_iff]
      simp [hrsv, hop, toNat_eq_zero_iff, -not_and, not_and_or]
    · rw [decodeFields_getint _ _ _ hrsv hop, exists_check_eq_error_iff]
      simp [hrsv, hop, toNat_eq_zero_iff]
    · rw [decodeFields_getlong _ _ _ hrsv hop, exists_check_eq_error_iff]
      simp [hrsv, hop, toNat_eq_zero_iff]
    · rw [decodeFields_getintx _ _ _ hrsv hop, exists_check_eq_error_iff, exists_map_eq_error_iff,
        exists_listOperand_eq_error_iff [w0, w1, w2] (length_eq_listWordCount hlength (.inl hop))]
      simp [hrsv, hop]
    · rw [decodeFields_getlongx _ _ _ hrsv hop, exists_check_eq_error_iff, exists_map_eq_error_iff,
        exists_listOperand_eq_error_iff [w0, w1, w2] (length_eq_listWordCount hlength (.inr hop))]
      simp [hrsv, hop]
    · rw [decodeFields_subbuf _ _ _ hrsv hop, exists_check_eq_error_iff]
      simp [hrsv, hop, toNat_eq_zero_iff, -not_and, not_and_or]
    · rw [decodeFields_getlen _ _ _ hrsv hop, exists_check_eq_error_iff]
      simp [hrsv, hop, toNat_eq_zero_iff, -not_and, not_and_or]
    · rw [decodeFields_load _ _ _ hrsv hop, exists_check_eq_error_iff]
      simp [hrsv, hop, toNat_eq_zero_iff, -not_and, not_and_or]
    · rw [decodeFields_discard _ _ _ hrsv hop, exists_check_eq_error_iff]
      simp [hrsv, hop, toNat_eq_zero_iff, -not_and, not_and_or]
    · have hop' : (opOf w0).toNat = 0 ∨ 10 ≤ (opOf w0).toNat := hop.imp_left (toNat_eq_zero_iff _).mpr
      simp only [decodeFields_reservedOp _ _ _ hrsv hop, ← or_assoc, hop', true_or, iff_true]
      exact ⟨_, rfl⟩
  · have hrsv' : (rsvOf w0).toNat ≠ 0 := mt (toNat_eq_zero_iff _).mp hrsv
    simp [decodeFields_reservedField _ _ _ hrsv, hrsv']

/-- Settles O3: a packet of fewer than three words or of another length than word 0 calls for is malformed, and in a packet
of the right length the field conditions decide. -/
theorem malformedExactlyAsListed : Obligations.MalformedExactlyAsListed := by
  intro ws
  match ws with
  | [] | [_] | [_, _] => simp [decode]
  | w0 :: w1 :: w2 :: ext =>
    have hwords := expectedWords_eq w0
    have hthree : ¬ (w0 :: w1 :: w2 :: ext).length < 3 := by simp
    by_cases hlength : ext.length + 3 = expectedWords w0
    · have hfields := exists_decodeFields_eq_error_iff w1 w2 hlength
      rw [← decode_of_length w1 w2 hlength] at hfields
      exact hfields.trans ((or_iff_right hthree).trans (or_iff_right (not_not.mpr (hlength.trans hwords)))).symm
    · exact ⟨fun _ => .inr (.inl fun hcount => hlength (hcount.trans hwords.symm)),
        fun _ => ⟨.wordCount, by rw [decode, if_neg hlength]⟩⟩

end Sys2Proof
end

section
/-! Written forms (spec/30_encoding.md R62, R81, R82, R84): which command a written form assembles to, and that a packet
can carry it. -/

namespace Sys2Proof

/-! ## Numbers and views as written (R82, R84) -/

@[simp] theorem toHalf?_toNat (x : Half) : toHalf? x.toNat = some x := by
  rw [toHalf?, if_pos x.isLt, BitVec.ofNat_toNat, BitVec.setWidth_eq]

/-- The indices of a list that fits the field `n`. -/
theorem toHalves?_map_toNat {ds : List Half} (h : ds.length ≤ 255) : toHalves? (ds.map BitVec.toNat) = some ds := by
  have hmapM : (ds.map BitVec.toNat).mapM toHalf? = some ds := by
    clear h
    induction ds with
    | nil => rfl
    | cons d ds ih => simp [ih]
  rw [toHalves?, List.length_map, if_pos h, hmapM]

theorem length_of_mapM_toHalf? {ds : List Nat} {hs : List Half} (h : ds.mapM toHalf? = some hs) :
    hs.length = ds.length := by
  induction ds generalizing hs with
  | nil =>
    cases h
    rfl
  | cons d ds ih =>
    simp only [List.mapM_cons, Option.bind_eq_bind, Option.bind_eq_some_iff, Option.pure_def, Option.some.injEq] at h
    obtain ⟨_, _, rest, hrest, rfl⟩ := h
    rw [List.length_cons, List.length_cons, ih hrest]

/-- A written list that assembles fits the field `n`. -/
theorem length_le_of_toHalves? {ds : List Nat} {hs : List Half} (h : toHalves? ds = some hs) : hs.length ≤ 255 := by
  rw [toHalves?, Option.ite_none_right_eq_some] at h
  obtain ⟨hfits, hmapM⟩ := h
  rwa [length_of_mapM_toHalf? hmapM]

/-- A view written as its pair or, for the root view, as `ROOT`. -/
theorem WrittenView.resolve_eq {root v : View} {wv : WrittenView}
    (h : wv = .pair v.vbase.toNat v.vlen.toNat ∨ (wv = .root ∧ v = root)) : wv.resolve root = some v := by
  obtain rfl | ⟨rfl, rfl⟩ := h
  · simp [WrittenView.resolve]
  · rfl

/-! ## What assembles is well-formed (R84) -/

theorem assembleGetint_wf {v : Option View} {b s l : Nat} {i : Instr} (h : assembleGetint v b s l = some i) :
    i.wf = true := by
  simp only [assembleGetint, Option.bind_eq_bind, Option.bind_eq_some_iff, Option.some.injEq] at h
  obtain ⟨_, _, _, _, _, _, _, _, rfl⟩ := h
  rfl

/-- Settles O6: only a list and a LOAD have a condition to meet, and the assembler checks both. -/
theorem assembledCommandIsWellFormed : Obligations.AssembledCommandIsWellFormed := by
  intro w root i h
  cases w with
  | getint | getopcode | getvendor | getoctet => exact assembleGetint_wf h
  | get | getlen =>
    simp only [Written.assemble, Option.bind_eq_bind, Option.bind_eq_some_iff, Option.some.injEq] at h
    obtain ⟨_, _, _, _, rfl⟩ := h
    rfl
  | subbuf =>
    simp only [Written.assemble, Option.bind_eq_bind, Option.bind_eq_some_iff, Option.some.injEq] at h
    obtain ⟨_, _, _, _, _, _, rfl⟩ := h
    rfl
  | getlong =>
    simp only [Written.assemble, Option.bind_eq_bind, Option.bind_eq_some_iff, Option.some.injEq] at h
    obtain ⟨_, _, _, _, _, _, _, _, rfl⟩ := h
    rfl
  | getintx v b ds | getlongx v b ds =>
    simp only [Written.assemble, Option.bind_eq_bind, Option.bind_eq_some_iff, Option.some.injEq] at h
    obtain ⟨_, _, _, _, hs, hds, rfl⟩ := h
    exact decide_eq_true (length_le_of_toHalves? hds)
  | load n os =>
    simp only [Written.assemble, Option.bind_eq_bind, Option.bind_eq_some_iff, Option.ite_none_right_eq_some,
      Option.some.injEq] at h
    obtain ⟨_, _, hdata, rfl⟩ := h
    exact decide_eq_true hdata
  | discard =>
    cases h
    rfl

/-! ## The data words of a LOAD (R81) -/

/-- The word that the first four octets fill, missing ones being zero. -/
def octetWord (os : List (BitVec 8)) : Word := os.getD 0 0 ++ os.getD 1 0 ++ os.getD 2 0 ++ os.getD 3 0

theorem octetWords_of_ne_nil {os : List (BitVec 8)} (h : os ≠ []) :
    octetWords os = octetWord os :: octetWords (os.drop 4) := by
  match os with
  | [a] =>
    have hpad : a ++ 0#24 = a ++ 0#8 ++ 0#8 ++ 0#8 :=
      BitVec.eq_of_toNat_eq (by simp only [toNat_append_add, BitVec.toNat_ofNat]; omega)
    simp [octetWords, octetWord, hpad]
  | [a, b] =>
    have hpad : a ++ b ++ 0#16 = a ++ b ++ 0#8 ++ 0#8 :=
      BitVec.eq_of_toNat_eq (by simp only [toNat_append_add, BitVec.toNat_ofNat]; omega)
    simp [octetWords, octetWord, hpad]
  | [a, b, c] => rfl
  | a :: b :: c :: d :: rest => rfl

theorem octetWords_length (os : List (BitVec 8)) : (octetWords os).length = (os.length + 3) / 4 := by
  induction os using octetWords.induct with
  | case1 => rfl
  | case2 | case3 | case4 => simp [octetWords]
  | case5 a b c d rest ih =>
    simp only [octetWords, List.length_cons, ih]
    omega

theorem octetWords_getD (os : List (BitVec 8)) (j : Nat) : (octetWords os).getD j 0 = octetWord (os.drop (4 * j)) := by
  induction j generalizing os with
  | zero =>
    by_cases h : os = []
    · subst h
      rfl
    · rw [octetWords_of_ne_nil h]
      rfl
  | succ j ih =>
    by_cases h : os = []
    · subst h
      simp [octetWords, octetWord]
    · rw [octetWords_of_ne_nil h, List.getD_cons_succ, ih, List.drop_drop]
      congr 2
      omega

/-- Bit `m` of the word, counted from the most significant one, is in octet `m / 8`. -/
theorem octetWord_getLsbD (os : List (BitVec 8)) {m : Nat} (h : m < 32) :
    (octetWord os).getLsbD (31 - m) = (os.getD (m / 8) 0).getLsbD (7 - m % 8) := by
  obtain ⟨q, r, hr, rfl⟩ : ∃ q r, r < 8 ∧ m = 8 * q + r := ⟨m / 8, m % 8, by omega, by omega⟩
  rw [show (8 * q + r) / 8 = q by omega, show (8 * q + r) % 8 = r by omega]
  simp only [octetWord, BitVec.getLsbD_append]
  split_ifs with h3 h2 h1
  · obtain rfl : q = 3 := by omega
    exact congrArg _ (by omega)
  · obtain rfl : q = 2 := by omega
    exact congrArg _ (by omega)
  · obtain rfl : q = 1 := by omega
    exact congrArg _ (by omega)
  · obtain rfl : q = 0 := by omega
    exact congrArg _ (by omega)

/-- The bits of the data words are those of the octets in order, most significant first, and zero past the last octet. -/
theorem octetWords_getLsbD (os : List (BitVec 8)) (k : Nat) :
    ((octetWords os).getD (k / 32) 0).getLsbD (31 - k % 32) = (os.getD (k / 8) 0).getLsbD (7 - k % 8) := by
  have hoctet : (os.drop (4 * (k / 32))).getD (k % 32 / 8) 0 = os.getD (k / 8) 0 := by
    rw [List.getD_eq_getElem?_getD, List.getElem?_drop, ← List.getD_eq_getElem?_getD]
    exact congrArg (os.getD · 0) (by omega)
  rw [octetWords_getD, octetWord_getLsbD _ (Nat.mod_lt _ (by decide)), hoctet]
  exact congrArg _ (by omega)

/-! ## Every form with operands in range assembles (R81) -/

/-- A LOAD whose octets fill the data words of `n` bits. -/
theorem assemble_load (root : View) {n : Half} {os : List (BitVec 8)}
    (h : (os.length + 3) / 4 = (n.toNat + 31) / 32) :
    (Written.load n.toNat os).assemble root = some (.load n (octetWords os)) := by
  have hwords : (octetWords os).length = dataWordCount n.toNat := (octetWords_length os).trans h
  simp [Written.assemble, hwords]

/-- Settles O53, form by form: the view and each number resolve to the operands they are written for. -/
theorem writtenFormAssemblesToItsCommand : Obligations.WrittenFormAssemblesToItsCommand := by
  intro root wv v hview
  have hv := WrittenView.resolve_eq hview
  refine ⟨fun i => ?get, fun b st l => ?getint, fun b st l => ?getlong, fun b ds hds => ?getintx, fun b ds hds => ?getlongx,
    fun st e => ?subbuf, fun b => ?getlen, fun n os hos => ?load, rfl⟩
  case getint => simp [Written.assemble, assembleGetint, hv]
  case get | getlong | subbuf | getlen => simp [Written.assemble, hv]
  case getintx | getlongx => simp [Written.assemble, hv, toHalves?_map_toNat hds]
  case load =>
    exact ⟨octetWords os, assemble_load root hos, octetWords_length os, fun k _ => octetWords_getLsbD os k⟩

/-! ## Pseudo-instructions and the root view (R62, R82) -/

namespace Machine

/-- A LOAD that meets none of its three errors creates the buffer and answers the root view (R151). -/
theorem loadNext_ok {s : State} {n : Half} (data : List Word) (hport : s.port = .H) (hempty : s.loaded = false)
    (hcap : n.toNat ≤ s.cfg.capBits) :
    loadNext n data s = (s.install n.toNat data).respond 8#4 0 (viewWord ⟨0, n⟩) 0 := by
  have herror : loadError n s = none := by simp [loadError, hport, hempty, hcap]
  rw [loadNext, herror]
  rfl

/-- Settles O5: the expansions agree number by number, and a LOAD makes `LEN` its `n`. -/
theorem pseudoInstructionsExpandToGetint : Obligations.PseudoInstructionsExpandToGetint := by
  refine ⟨fun root v b k => ⟨rfl, rfl, ?_⟩, fun _ => rfl, fun _ => rfl, fun s hlen => ⟨rfl, ?_⟩,
    fun s n data hport hempty hcap => ?_⟩
  · have hoctet : octetConst (k + 1) = 8 * k := by rw [octetConst, Nat.add_sub_cancel, Nat.mul_comm]
    rw [hoctet]
    rfl
  · exact (BitVec.toNat_ofNat ..).trans (Nat.mod_eq_of_lt (by omega))
  · have hroot : ∀ t : State, t.len = n.toNat → t.rootView = ⟨0, n⟩ := fun t ht => by
      rw [State.rootView, ht, BitVec.ofNat_toNat, BitVec.setWidth_eq]
    refine ⟨_, congrArg Host.Outcome.next (loadNext_ok data hport hempty hcap), hroot _ rfl, ?_⟩
    rw [hroot _ rfl]
    exact State.respond_sends (s.install n.toNat data) 8#4 0 (viewWord ⟨0, n⟩) 0

end Machine

end Sys2Proof
end

section
/-! Descriptors as packets carry them, the answers to packets, and runs (spec/30_encoding.md R61, R77, R78, R83). -/

namespace Sys2Proof.Machine

/-! ## The two forms of a descriptor (R61) -/

/-- A contiguous descriptor resolves as the list of the same indices does. -/
theorem resolveDesc_contig_eq_list (b maxlen st l : Nat) :
    resolveDesc b maxlen (.contig st l) = resolveDesc b maxlen (.list ((List.range l).map fun k => st + k)) := by
  have hlength : ((List.range l).map fun k => st + k).length = l := by simp
  rw [resolveDesc, resolveDesc]
  by_cases h : l = 0 ∨ maxlen < l
  · rw [resolveContig_baddesc h, resolveList_baddesc]
    rw [hlength]
    exact h.imp (fun h0 => by rw [h0]; rfl) .inl
  · obtain ⟨hpos, hle⟩ := not_or.mp h
    have hascending : ((List.range l).map fun k => st + k).Pairwise (· < ·) :=
      List.pairwise_lt_range.map _ fun _ _ hlt => Nat.add_lt_add_left hlt st
    rw [resolveContig_ok (by omega) (by omega), resolveList_ok _ (by omega) hascending, List.map_map]
    · exact congrArg _ (List.map_congr_left fun k _ => Nat.add_assoc b st k)
    · exact fun hnil => hpos (by rw [← hlength, hnil]; rfl)

/-- Settles O27: the two forms resolve alike, and extraction sees only what they resolve to. -/
theorem descriptorFormsAgree : Obligations.DescriptorFormsAgree := by
  intro s w maxlen v b st l
  rw [resolveDesc_contig_eq_list]

/-! ## Malformed packets (R77, R83) -/

/-- The echoed `op` is that of word 0, an empty packet counting as one of zeros. -/
theorem opEcho_eq (ws : List Word) : opEcho ws = opOf (ws.headD 0) := by
  cases ws <;> rfl

/-- Settles O8: the served packet takes error entry, whose response and frame are known. -/
theorem malformedPacketRaisesBadcmd : Obligations.MalformedPacketRaisesBadcmd := by
  intro s p o rest m hreset hhalted harb hoffers hdecode
  have hstep := (step_accept hreset hhalted harb hoffers).trans (runPacket_error hdecode (s.take p o))
  rw [opEcho_eq] at hstep
  refine ⟨_, hstep, State.raise_sends _ _ _ _, State.raise_sameData _ _ _ _, rfl, ?_, fun hclear => ?_, fun hseen => ?_⟩
  · rw [State.raise_halted, State.take_halted, State.take_debug, hhalted, Bool.false_or]
  · rw [State.raise_fcode, State.raise_fop, State.take_errSeen, hclear]
    exact ⟨rfl, rfl⟩
  · rw [State.raise_fcode, State.raise_fop, State.take_errSeen, hseen]
    exact ⟨rfl, rfl⟩

/-! ## One response to every packet (R78, R174) -/

/-- The packet of a well-formed command carries its operation code. -/
theorem opEcho_encode {i : Instr} (hwf : i.wf = true) : opEcho (encode i) = i.op := by
  rw [opEcho_eq]
  cases i <;> exact opOf_headerWord _ _ _

/-- A packet that decodes carries the operation code of its command. -/
theorem opEcho_of_decode {ws : List Word} {i : Instr} (h : decode ws = .ok i) : opEcho ws = i.op := by
  obtain ⟨hwf, rfl⟩ := encodeOfDecodeIsThePacket ws i h
  exact opEcho_encode hwf

/-- A decoded command sends one response, with its operation code and a code of at most 8. -/
theorem exec_head (i : Instr) (s : State) :
    ∃ t code w1 w2, exec i s = .next t ∧ s.Sends t ⟨responseHead i.op code, w1, w2⟩ ∧ code.toNat ≤ 8 := by
  rcases exec_cases i s with ⟨w1, w2, h⟩ | ⟨e, h⟩ | ⟨n, data, rfl, -, -, -, h⟩ | ⟨rfl, -, -, h⟩
  · exact ⟨_, _, _, _, h, s.respond_sends _ _ _ _, by decide⟩
  · exact ⟨_, _, _, _, h, s.raise_sends _ _ _, e.code_le.2⟩
  · exact ⟨_, _, _, _, h, (s.install n.toNat data).respond_sends _ _ _ _, by decide⟩
  · exact ⟨_, _, _, _, h, s.drop.respond_sends _ _ _ _, by decide⟩

/-- Every packet, malformed or not, is answered with its echoed `op` and a code of at most 8. -/
theorem runPacket_head (ws : List Word) (s : State) :
    ∃ t code w1 w2, runPacket ws s = .next t ∧ s.Sends t ⟨responseHead (opEcho ws) code, w1, w2⟩ ∧ code.toNat ≤ 8 := by
  cases hdecode : decode ws with
  | ok i =>
    rw [runPacket_ok hdecode, opEcho_of_decode hdecode]
    exact exec_head i s
  | error m => exact ⟨_, _, _, _, runPacket_error hdecode s, s.raise_sends _ _ _, ErrCode.badcmd.code_le.2⟩

/-- Settles O10: running the packet leaves what waits and sends one response, whose word 0 is known. -/
theorem everyAcceptedPacketIsAnsweredOnce : Obligations.EveryAcceptedPacketIsAnsweredOnce := by
  intro s p o rest hreset hhalted harb hoffers
  obtain ⟨t, code, w1, w2, hrun, hsends, hcode⟩ := runPacket_head o.words (s.take p o)
  obtain ⟨t', -, hrun', -, hwaits, -⟩ := runPacket_response o.words (s.take p o)
  cases hrun.symm.trans hrun'
  have hsent : ∀ q, t.sent q = if q = p then s.sent q ++ [_] else s.sent q := fun q => by
    rw [hsends.sent, State.take_port, State.take_sent]
  have hoffered : ∀ q, t.offers q = if q = p then rest else s.offers q := fun q => by
    rw [hwaits, State.take_offers hoffers]
  refine ⟨t, _, (step_accept hreset hhalted harb hoffers).trans hrun, (hsent p).trans (if_pos rfl),
    (hoffered p).trans (if_pos rfl), fun q hq => ⟨(hsent q).trans (if_neg hq), (hoffered q).trans (if_neg hq)⟩, ?_, ?_, ?_⟩
  · rw [opEcho_eq]
    exact opOf_responseHead _ _
  · exact (congrArg BitVec.toNat (rsvOf_responseHead _ code)).trans_le hcode
  · exact responseHead_low _ _

/-! ## Runs (R195) -/

section
variable {s t : State} {run : Run}

theorem Run.count_concat (run : Run) (p q : Port) (o : Offer) :
    Run.count (run ++ [(p, o)]) q = run.count q + if p = q then 1 else 0 := by
  simp [Run.count, List.countP_append, List.countP_singleton]

/-- In a run no packet is lost and none is answered twice: at each port the packets that wait and the responses sent are
together as many as at the start, and one more for each transaction offered. -/
theorem State.Reaches.balance (h : s.Reaches run t) (q : Port) :
    (t.sent q).length + (t.offers q).length = (s.sent q).length + (s.offers q).length + run.count q := by
  induction h with
  | start => rfl
  | offer p o _ ih =>
    rw [State.offer_sent, State.offer_offers, Run.count_concat, ← Nat.add_assoc, ← ih]
    by_cases hq : q = p
    · simp only [hq, if_true, List.length_append, List.length_singleton]
      omega
    · simp [hq, Ne.symm hq]
  | step _ hreset hstep ih =>
    rw [← ih]
    rcases step_books hreset hstep with ⟨rfl, -⟩ | ⟨p, o, rest, r, hserved, -, hoffers, hsent, -⟩
    · rfl
    · rw [hoffers, hsent]
      by_cases hq : q = p
      · subst hq
        simp only [if_true, hserved, List.length_append, List.length_cons, List.length_nil]
        omega
      · simp [hq]

/-- In a run the responses of the start stay. -/
theorem State.Reaches.sent_extends (h : s.Reaches run t) (q : Port) : s.sent q <+: t.sent q := by
  induction h with
  | start => exact ⟨[], List.append_nil _⟩
  | offer p o _ ih => rwa [State.offer_sent]
  | step _ hreset hstep ih =>
    rcases step_books hreset hstep with ⟨rfl, -⟩ | ⟨p, o, rest, r, -, -, -, hsent, -⟩
    · exact ih
    · rw [hsent]
      split
      · exact ih.trans ⟨[r], rfl⟩
      · exact ih

/-- A run has ended well when nothing waits and the block is not halted: that all is answered follows. -/
theorem State.Reaches.endsWell_iff (h : s.Reaches run t) :
    s.EndsWell run t ↔ t.hIn = [] ∧ t.rIn = [] ∧ t.halted = false := by
  constructor
  · rintro ⟨-, haccepted, -, hrunning⟩
    exact ⟨haccepted .H, haccepted .R, hrunning⟩
  · rintro ⟨hH, hR, hrunning⟩
    have haccepted : ∀ q, t.offers q = []
      | .H => hH
      | .R => hR
    refine ⟨h, haccepted, fun q => ?_, hrunning⟩
    rw [← h.balance q, haccepted q, List.length_nil, Nat.add_zero]

end

/-- Settles O54, by induction on the run: the books balance at every offer and every step. -/
theorem everyOfferedPacketIsAnsweredOrWaits : Obligations.EveryOfferedPacketIsAnsweredOrWaits := fun _ _ _ h =>
  ⟨h.balance, h.sent_extends, h.endsWell_iff⟩

end Sys2Proof.Machine
end

section
/-! Bit access (spec/40_bit_access.md R91 to R104): what raises an error and which, and what the five reads answer. The four
field commands share one shape, `ReadsField`; each fact about it serves all four. -/

namespace Sys2Proof.Machine

/-! ## What follows the prologue (R91) -/

section
variable {s : State} {v : View}

theorem State.prologue_bind_of_error {α : Type} {e : ErrCode} (h : s.prologue v = .error e)
    (f : Unit → Except ErrCode α) : (s.prologue v >>= f) = .error e := by
  rw [h]
  rfl

theorem State.prologue_bind_of_ready {α : Type} (h : s.Ready v) (f : Unit → Except ErrCode α) :
    (s.prologue v >>= f) = f () := by
  rw [State.prologue_ok h]
  rfl

/-- On a ready view an error of the descriptor is the error of the field: it comes before any bounds check (R92, R93). -/
theorem State.field_of_descriptor_error {w : Nat} {e : ErrCode} (h : s.Ready v) {idx : Except ErrCode (List Nat)}
    (hidx : idx = .error e) : s.field w v idx = .error e := by
  rw [State.field_ready h, hidx]
  rfl

end

/-! ## The end of a command whose result is known (R78, R166, R167) -/

section
variable {i : Instr} {s : State} {result : Except ErrCode (Word × Word)}

theorem exec_of_result_ok {w1 w2 : Word} (hexec : exec i s = .next (s.answer i result)) (h : result = .ok (w1, w2)) :
    exec i s = .next (s.respond i.op 0 w1 w2) := by
  rw [hexec, h, State.answer_ok]

theorem exec_of_result_error {e : ErrCode} (hexec : exec i s = .next (s.answer i result)) (h : result = .error e) :
    exec i s = .next (s.raise e i.op (encode i)) := by
  rw [hexec, h, State.answer_error]

end

/-- An answer with code 0 is one response; all other state and every cell of the store stays (R11). -/
theorem State.respond_only (s : State) (op : Nibble) (w1 w2 : Word) :
    s.Sends (s.respond op 0 w1 w2) ⟨responseHead op 0, w1, w2⟩
      ∧ s.SameData (s.respond op 0 w1 w2) ∧ s.SameFlags (s.respond op 0 w1 w2)
      ∧ ∀ a, Cells.read (s.respond op 0 w1 w2).store a = Cells.read s.store a :=
  ⟨s.respond_sends op 0 w1 w2, s.respond_sameData op 0 w1 w2, s.respond_sameFlags op 0 w1 w2, fun _ => rfl⟩

/-! ## The shape of the four field commands (R98 to R101) -/

/-- In every state the command answers the field of the view `v` at the indices `idx`, packed into the payload. -/
def ReadsField {w : Nat} (i : Instr) (v : View) (idx : Except ErrCode (List Nat)) (payload : BitVec w → Word × Word) :
    Prop :=
  ∀ s : State, exec i s = .next (s.answer i ((s.field w v idx).map payload))

theorem readsField_getint (v : View) (b st l : Half) :
    ReadsField (.getint v b st l) v (resolveContig b.toNat st.toNat l.toNat 32) intPayload := fun _ => rfl

theorem readsField_getlong (v : View) (b st l : Half) :
    ReadsField (.getlong v b st l) v (resolveContig b.toNat st.toNat l.toNat 64) longPayload := fun _ => rfl

theorem readsField_getintx (v : View) (b : Half) (ds : List Half) :
    ReadsField (.getintx v b ds) v (resolveList b.toNat (ds.map BitVec.toNat) 32) intPayload := fun _ => rfl

theorem readsField_getlongx (v : View) (b : Half) (ds : List Half) :
    ReadsField (.getlongx v b ds) v (resolveList b.toNat (ds.map BitVec.toNat) 64) longPayload := fun _ => rfl

section
variable {w : Nat} {i : Instr} {v : View} {idx : Except ErrCode (List Nat)} {payload : BitVec w → Word × Word} {s : State}

theorem ReadsField.exec_ok (hi : ReadsField i v idx payload) {x : BitVec w} (h : s.field w v idx = .ok x) :
    exec i s = .next (s.respond i.op 0 (payload x).1 (payload x).2) :=
  exec_of_result_ok (hi s) (congrArg (Except.map payload) h)

theorem ReadsField.exec_error (hi : ReadsField i v idx payload) {e : ErrCode} (h : s.field w v idx = .error e) :
    exec i s = .next (s.raise e i.op (encode i)) :=
  exec_of_result_error (hi s) (congrArg (Except.map payload) h)

end

/-! ## Lists of operand halves as descriptors (R84, R93) -/

section
variable {s : State} {v : View} {b : Half} {ds : List Half} {m : Nat}

theorem resolveList_halves_baddesc (h : ds = [] ∨ m < ds.length ∨ ¬ (ds.map BitVec.toNat).Pairwise (· < ·)) :
    resolveList b.toNat (ds.map BitVec.toNat) m = .error .baddesc :=
  resolveList_baddesc (by rwa [List.map_eq_nil_iff, List.length_map])

theorem State.field_halves_oob (w : Nat) (hready : s.Ready v) (hne : ds ≠ []) (hlength : ds.length ≤ m)
    (hascending : (ds.map BitVec.toNat).Pairwise (· < ·)) (hout : ∃ d ∈ ds, v.vlen.toNat ≤ b.toNat + d.toNat) :
    s.field w v (resolveList b.toNat (ds.map BitVec.toNat) m) = .error .oob := by
  obtain ⟨d, hd, hle⟩ := hout
  exact State.field_list_oob w hready (mt List.map_eq_nil_iff.mp hne) (by rwa [List.length_map]) hascending
    ⟨d.toNat, List.mem_map_of_mem hd, hle⟩

theorem State.field_halves_ok (w : Nat) (hready : s.Ready v) (hne : ds ≠ []) (hlength : ds.length ≤ m)
    (hascending : (ds.map BitVec.toNat).Pairwise (· < ·)) (hin : ∀ d ∈ ds, b.toNat + d.toNat < v.vlen.toNat) :
    s.field w v (resolveList b.toNat (ds.map BitVec.toNat) m)
      = .ok (BitVec.ofNat w (s.fieldValue ds.length fun k => v.vbase.toNat + (b.toNat + (ds.getD k 0).toNat))) := by
  have hget : ∀ k, (ds.map BitVec.toNat).getD k 0 = (ds.getD k 0).toNat := fun k => List.getD_map ds 0 BitVec.toNat
  rw [State.field_list_ok w hready (mt List.map_eq_nil_iff.mp hne) (by rwa [List.length_map]) hascending
    (List.forall_mem_map.mpr hin), List.length_map]
  simp only [hget]

end

/-! ## Errors (R91 to R95, R121, R135) -/

/-- An error of the prologue is the error of every command that carries a view (R91). -/
theorem exec_of_prologue_error {s : State} {i : Instr} {v : View} {e : ErrCode} (hview : i.view = some v)
    (h : s.prologue v = .error e) : exec i s = .next (s.raise e i.op (encode i)) := by
  cases i <;> cases hview
  case get k => exact exec_of_result_error rfl (State.prologue_bind_of_error h _)
  case getint b st l => exact (readsField_getint v b st l).exec_error (State.prologue_bind_of_error h _)
  case getlong b st l => exact (readsField_getlong v b st l).exec_error (State.prologue_bind_of_error h _)
  case getintx b ds => exact (readsField_getintx v b ds).exec_error (State.prologue_bind_of_error h _)
  case getlongx b ds => exact (readsField_getlongx v b ds).exec_error (State.prologue_bind_of_error h _)
  case subbuf st e => exact exec_of_result_error rfl (State.prologue_bind_of_error h _)
  case getlen b => exact exec_of_result_error rfl (State.prologue_bind_of_error h _)

/-- Settles O17: the prologue answers NOBUF, else BADVIEW, and its error is that of the command. -/
theorem prologueChecksBufferThenView : Obligations.PrologueChecksBufferThenView := fun _ _ _ hview =>
  ⟨fun hempty => exec_of_prologue_error hview (State.prologue_nobuf hempty),
    fun hloaded houtside => exec_of_prologue_error hview (State.prologue_badview hloaded houtside)⟩

section
variable {s : State} {v : View}

theorem getResult_oob {k : Half} (hready : s.Ready v) (h : v.vlen.toNat ≤ k.toNat) : getResult v k s = .error .oob :=
  (State.prologue_bind_of_ready hready _).trans (if_pos h)

theorem subbufResult_baddesc {st e : Half} (hready : s.Ready v) (h : e.toNat < st.toNat) :
    subbufResult v st e s = .error .baddesc :=
  (State.prologue_bind_of_ready hready _).trans (if_pos h)

theorem subbufResult_oob {st e : Half} (hready : s.Ready v) (hvalid : st.toNat ≤ e.toNat)
    (h : v.vlen.toNat < e.toNat) : subbufResult v st e s = .error .oob :=
  (State.prologue_bind_of_ready hready _).trans ((if_neg (Nat.not_lt.mpr hvalid)).trans (if_pos h))

theorem getlenResult_oob {b : Half} (hready : s.Ready v) (h : v.vlen.toNat < b.toNat + 8) :
    getlenResult v b s = .error .oob := by
  refine (State.prologue_bind_of_ready hready _).trans ?_
  rw [State.opcodeAt_oob h]
  rfl

end

/-- Settles O18: resolving the descriptor fails, and on a ready view that is the command's error. -/
theorem badDescriptorRaisesBaddesc : Obligations.BadDescriptorRaisesBaddesc := by
  intro s v hready
  refine ⟨fun b st l hbad => ?getint, fun b st l hbad => ?getlong, fun b ds hbad => ?getintx,
    fun b ds hbad => ?getlongx, fun st e hbad => ?subbuf⟩
  case getint =>
    exact (readsField_getint v b st l).exec_error (State.field_of_descriptor_error hready (resolveContig_baddesc hbad))
  case getlong =>
    exact (readsField_getlong v b st l).exec_error (State.field_of_descriptor_error hready (resolveContig_baddesc hbad))
  case getintx =>
    exact (readsField_getintx v b ds).exec_error
      (State.field_of_descriptor_error hready (resolveList_halves_baddesc hbad))
  case getlongx =>
    exact (readsField_getlongx v b ds).exec_error
      (State.field_of_descriptor_error hready (resolveList_halves_baddesc hbad))
  case subbuf => exact exec_of_result_error rfl (subbufResult_baddesc hready hbad)

/-- Settles O19: with a descriptor that resolves, one index outside the view is enough. -/
theorem indexNotBelowViewLengthRaisesOob : Obligations.IndexNotBelowViewLengthRaisesOob := by
  intro s v hready
  refine ⟨fun k hout => ?get, fun b st l hpos hmax hout => ?getint, fun b st l hpos hmax hout => ?getlong,
    fun b ds hne hmax hascending hout => ?getintx, fun b ds hne hmax hascending hout => ?getlongx,
    fun st e hvalid hout => ?subbuf, fun b hout => ?getlen⟩
  case get => exact exec_of_result_error rfl (getResult_oob hready hout)
  case getint => exact (readsField_getint v b st l).exec_error (State.field_contig_oob 32 hready hpos hmax hout)
  case getlong => exact (readsField_getlong v b st l).exec_error (State.field_contig_oob 64 hready hpos hmax hout)
  case getintx =>
    exact (readsField_getintx v b ds).exec_error (State.field_halves_oob 32 hready hne hmax hascending hout)
  case getlongx =>
    exact (readsField_getlongx v b ds).exec_error (State.field_halves_oob 64 hready hne hmax hascending hout)
  case subbuf => exact exec_of_result_error rfl (subbufResult_oob hready hvalid hout)
  case getlen => exact exec_of_result_error rfl (getlenResult_oob hready hout)

/-! ## The values of fields (R95, R103, R104) -/

section
variable (s : State) {n : Nat}

/-- A result register that is wide enough holds the value of the field (R102). -/
theorem State.toNat_ofNat_fieldValue (a : Nat → Nat) {w : Nat} (h : n ≤ w) :
    (BitVec.ofNat w (s.fieldValue n a)).toNat = s.fieldValue n a := by
  rw [BitVec.toNat_ofNat, Nat.mod_eq_of_lt ((s.fieldValue_lt n a).trans_le (Nat.pow_le_pow_right (by decide) h))]

/-- Cells that hold the low `n` bits of `x`, most significant first, are a field with that value (R103). -/
theorem State.fieldValue_of_bits {x : Nat} {a : Nat → Nat} (h : ∀ j, j < n → s.bit (a j) = x.testBit (n - 1 - j)) :
    s.fieldValue n a = x % 2 ^ n := by
  have hbits : ((List.range n).map fun k => s.bit (a k)) = unpackBits n x :=
    List.map_congr_left fun k hk => h k (List.mem_range.mp hk)
  rw [State.fieldValue, ← packBits_range n fun k => s.bit (a k), hbits, packBits_unpackBits]

/-- A field of `p + q` bits is its first `p` bits times `2^q` plus its last `q` bits (R104). -/
theorem State.fieldValue_add (p q : Nat) (a : Nat → Nat) :
    s.fieldValue (p + q) a = s.fieldValue p a * 2 ^ q + s.fieldValue q fun k => a (p + k) := by
  simp only [State.fieldValue]
  rw [← packBits_range, ← packBits_range, ← packBits_range, List.range_add, List.map_append, List.map_map,
    packBits_append, List.length_map, List.length_range]
  rfl

end

/-- The two words of a 64-bit result are its value (R79). -/
theorem toNat_longPayload (x : BitVec 64) :
    (x.extractLsb' 32 32).toNat * 2 ^ 32 + (x.extractLsb' 0 32).toNat = x.toNat := by
  have := x.isLt
  simp only [BitVec.extractLsb'_toNat, Nat.shiftRight_eq_div_pow]
  omega

/-- The words of a 64-bit result, as those of the number it holds (R79). -/
theorem longPayload_ofNat (n : Nat) :
    longPayload (BitVec.ofNat 64 n) = (BitVec.ofNat 32 (n / 2 ^ 32), BitVec.ofNat 32 n) := by
  refine Prod.ext (BitVec.eq_of_toNat_eq ?_) (BitVec.eq_of_toNat_eq ?_) <;>
    simp only [longPayload, BitVec.extractLsb'_toNat, BitVec.toNat_ofNat, Nat.shiftRight_eq_div_pow] <;> omega

/-! ## What the reads answer (R97 to R101) -/

/-- Settles O22: past the prologue and the bounds check the result is the bit, whose number is 0 or 1. -/
theorem getAnswersTheIndexedBit : Obligations.GetAnswersTheIndexedBit := by
  intro s v k hready hin
  have hresult : getResult v k s = .ok (0, if s.bit (v.vbase.toNat + k.toNat) then 1 else 0) := by
    refine (State.prologue_bind_of_ready hready _).trans ((if_neg (Nat.not_le.mpr hin)).trans ?_)
    cases s.bit (v.vbase.toNat + k.toNat) <;> rfl
  exact ⟨_, exec_of_result_ok rfl hresult, s.respond_only 1#4 _ _⟩

/-- Settles O23: a field in bounds is the number its bits spell, and 32 bits hold it. -/
theorem getintAnswersTheField : Obligations.GetintAnswersTheField := fun s v b st l hready hpos hmax hin =>
  ⟨_, _, (readsField_getint v b st l).exec_ok (State.field_contig_ok 32 hready hpos hmax hin),
    s.toNat_ofNat_fieldValue _ hmax, s.respond_only 2#4 _ _⟩

/-- Settles O24: as for GETINT, with the value in two words. -/
theorem getlongAnswersTheField : Obligations.GetlongAnswersTheField := fun s v b st l hready hpos hmax hin =>
  ⟨_, _, _, (readsField_getlong v b st l).exec_ok (State.field_contig_ok 64 hready hpos hmax hin),
    (toNat_longPayload _).trans (s.toNat_ofNat_fieldValue _ hmax), s.respond_only 3#4 _ _⟩

/-- Settles O25: listed bits in bounds are the number they spell, and 32 bits hold it. -/
theorem getintxAnswersTheListedBits : Obligations.GetintxAnswersTheListedBits :=
  fun s v b ds hready hne hmax hascending hin =>
  ⟨_, _, (readsField_getintx v b ds).exec_ok (State.field_halves_ok 32 hready hne hmax hascending hin),
    s.toNat_ofNat_fieldValue _ hmax, s.respond_only 4#4 _ _⟩

/-- Settles O26: as for GETINTX, with the value in two words. -/
theorem getlongxAnswersTheListedBits : Obligations.GetlongxAnswersTheListedBits :=
  fun s v b ds hready hne hmax hascending hin =>
  ⟨_, _, _, (readsField_getlongx v b ds).exec_ok (State.field_halves_ok 64 hready hne hmax hascending hin),
    (toNat_longPayload _).trans (s.toNat_ofNat_fieldValue _ hmax), s.respond_only 5#4 _ _⟩

/-! ## Commands that agree (R96, R99, R104) -/

/-- Two commands that read the same field answer the same code, the same payload unless it is an error's, and leave the same
error bits but `FOP`. -/
theorem ReadsField.answer_alike {w : Nat} {i j : Instr} {v : View} {idx : Except ErrCode (List Nat)}
    {payload : BitVec w → Word × Word} (hi : ReadsField i v idx payload) (hj : ReadsField j v idx payload) (s : State) :
    ∃ t t' r r', exec i s = .next t ∧ exec j s = .next t'
      ∧ s.Sends t r ∧ s.Sends t' r' ∧ r.code = r'.code ∧ (r.code = 0 → r.w1 = r'.w1 ∧ r.w2 = r'.w2)
      ∧ t.errSeen = t'.errSeen ∧ t.halted = t'.halted ∧ t.fcode = t'.fcode := by
  cases hfield : s.field w v idx with
  | ok x =>
    exact ⟨_, _, _, _, hi.exec_ok hfield, hj.exec_ok hfield, s.respond_sends _ _ _ _, s.respond_sends _ _ _ _,
      by simp only [Response.code_mk], fun _ => ⟨rfl, rfl⟩, rfl, rfl, rfl⟩
  | error e =>
    refine ⟨_, _, _, _, hi.exec_error hfield, hj.exec_error hfield, s.raise_sends _ _ _, s.raise_sends _ _ _,
      by simp only [Response.code_mk], fun hcode => ?_, rfl, rfl, rfl⟩
    rw [Response.code_mk] at hcode
    exact absurd hcode e.code_ne_zero

/-- Settles O28: a list of consecutive indices resolves as the contiguous descriptor does, so both commands read the same
field. -/
theorem listCommandAnswersAsContiguous : Obligations.ListCommandAnswersAsContiguous := by
  intro s v b st l ds hconsecutive
  have hresolve : ∀ m, resolveContig b.toNat st.toNat l.toNat m = resolveList b.toNat (ds.map BitVec.toNat) m :=
    fun m => (resolveDesc_contig_eq_list b.toNat m st.toNat l.toNat).trans (by rw [hconsecutive]; rfl)
  have hint := readsField_getint v b st l
  have hlong := readsField_getlong v b st l
  rw [hresolve] at hint hlong
  exact ⟨hint.answer_alike (readsField_getintx v b ds) s, hlong.answer_alike (readsField_getlongx v b ds) s⟩

/-- Settles O29: a field of at most 32 bits is below `2^32`, so it leaves word 1 of a 64-bit result zero. -/
theorem shortGetlongIsGetint : Obligations.ShortGetlongIsGetint := by
  intro s v b st l hready hpos hmax hin
  have hgetint := (readsField_getint v b st l).exec_ok (State.field_contig_ok 32 hready hpos hmax hin)
  have hgetlong := (readsField_getlong v b st l).exec_ok
    (State.field_contig_ok 64 hready hpos (hmax.trans (by decide)) hin)
  have hsmall : s.fieldValue l.toNat (fun k => v.vbase.toNat + (b.toNat + st.toNat + k)) < 2 ^ 32 :=
    (s.fieldValue_lt _ _).trans_le (Nat.pow_le_pow_right (by decide) hmax)
  rw [longPayload_ofNat, Nat.div_eq_of_lt hsmall] at hgetlong
  exact ⟨_, _, _, hgetint, hgetlong, s.respond_sends 2#4 0 _ _, s.respond_sends 3#4 0 _ _⟩

/-- Only the sum of base offset and start enters what a contiguous descriptor resolves to (R92, R104). -/
theorem resolveContig_congr_sum {b st b' st' : Nat} (h : b + st = b' + st') (l m : Nat) :
    resolveContig b st l m = resolveContig b' st' l m := by
  rw [resolveContig, resolveContig, h]

/-- Settles O31: the value of the joined field is that of its parts, and a moved base resolves to the same indices. -/
theorem fieldsSplitAndJoin : Obligations.FieldsSplitAndJoin := by
  intro s v hready
  constructor
  · intro b st p q stp pq hp hq hmax hpq hstp hin
    have hjoin : s.fieldValue pq.toNat (fun k => v.vbase.toNat + (b.toNat + st.toNat + k))
        = s.fieldValue p.toNat (fun k => v.vbase.toNat + (b.toNat + st.toNat + k)) * 2 ^ q.toNat
          + s.fieldValue q.toNat (fun k => v.vbase.toNat + (b.toNat + stp.toNat + k)) := by
      rw [hpq, s.fieldValue_add, hstp]
      simp only [Nat.add_assoc]
    refine ⟨_, _, _, _, _, _,
      (readsField_getlong v b st pq).exec_ok (State.field_contig_ok 64 hready ?_ ?_ ?_), s.respond_sends 3#4 0 _ _,
      (readsField_getlong v b st p).exec_ok (State.field_contig_ok 64 hready hp ?_ ?_), s.respond_sends 3#4 0 _ _,
      (readsField_getlong v b stp q).exec_ok (State.field_contig_ok 64 hready hq ?_ ?_), s.respond_sends 3#4 0 _ _,
      ?value⟩
    case value =>
      rw [s.toNat_ofNat_fieldValue _ (by omega), s.toNat_ofNat_fieldValue _ (by omega),
        s.toNat_ofNat_fieldValue _ (by omega), hjoin]
    all_goals omega
  · intro b st l m bm stm hpos hmax hbm hstm hin
    have hresolve : resolveContig bm.toNat st.toNat l.toNat 64 = resolveContig b.toNat stm.toNat l.toNat 64 :=
      resolveContig_congr_sum (by omega) _ _
    have hfield := State.field_contig_ok 64 hready hpos hmax (show b.toNat + stm.toNat + l.toNat ≤ _ by omega)
    exact ⟨_, _, _, (readsField_getlong v bm st l).exec_ok (by rw [hresolve]; exact hfield),
      (readsField_getlong v b stm l).exec_ok hfield, s.respond_sends 3#4 0 _ _, s.respond_sends 3#4 0 _ _⟩

/-! ## The round trip (R103) -/

section
variable {s : State} {v : View} {l m x : Nat}

/-- A contiguous field that holds the `l` bits of `x`, most significant first, is read as `x`. -/
theorem State.field_contig_stored {b st : Nat} (w : Nat) (hready : s.Ready v) (hpos : 1 ≤ l) (hmax : l ≤ m)
    (hx : x < 2 ^ l) (hin : b + st + l ≤ v.vlen.toNat)
    (hbits : ∀ j, j < l → s.bit (v.vbase.toNat + b + st + j) = x.testBit (l - 1 - j)) :
    s.field w v (resolveContig b st l m) = .ok (BitVec.ofNat w x) := by
  simp only [Nat.add_assoc] at hbits
  rw [State.field_contig_ok w hready hpos hmax hin]
  simp only [Nat.add_assoc]
  rw [s.fieldValue_of_bits hbits, Nat.mod_eq_of_lt hx]

/-- Listed cells that hold the bits of `x`, most significant first, are read as `x`. -/
theorem State.field_halves_stored {b : Half} {ds : List Half} (w : Nat) (hready : s.Ready v) (hne : ds ≠ [])
    (hmax : ds.length ≤ m) (hx : x < 2 ^ ds.length) (hascending : (ds.map BitVec.toNat).Pairwise (· < ·))
    (hin : ∀ d ∈ ds, b.toNat + d.toNat < v.vlen.toNat)
    (hbits : ∀ j, j < ds.length → s.bit (v.vbase.toNat + b.toNat + (ds.getD j 0).toNat) = x.testBit (ds.length - 1 - j)) :
    s.field w v (resolveList b.toNat (ds.map BitVec.toNat) m) = .ok (BitVec.ofNat w x) := by
  simp only [Nat.add_assoc] at hbits
  rw [State.field_halves_ok w hready hne hmax hascending hin, s.fieldValue_of_bits hbits, Nat.mod_eq_of_lt hx]

end

section
variable {i : Instr} {op : Nibble} {v : View} {idx : Except ErrCode (List Nat)} {s : State} {x : BitVec 64}

theorem ReadsField.answers_long (hi : ReadsField i v idx longPayload) (hop : i.op = op)
    (h : s.field 64 v idx = .ok (BitVec.ofNat 64 x.toNat)) :
    ∃ t, exec i s = .next t ∧ s.Sends t ⟨responseHead op 0, x.extractLsb' 32 32, x.extractLsb' 0 32⟩ := by
  rw [BitVec.ofNat_toNat, BitVec.setWidth_eq] at h
  rw [← hop]
  exact ⟨_, hi.exec_ok h, s.respond_sends _ _ _ _⟩

theorem ReadsField.answers_int (hi : ReadsField i v idx intPayload) (hop : i.op = op)
    (h : s.field 32 v idx = .ok (BitVec.ofNat 32 x.toNat)) :
    ∃ t, exec i s = .next t ∧ s.Sends t ⟨responseHead op 0, 0, x.extractLsb' 0 32⟩ := by
  rw [← hop]
  exact ⟨_, hi.exec_ok h, s.respond_sends _ _ _ _⟩

end

/-- Settles O30: the bits stored spell `x`, so the field is read as `x`, in either width and either form. -/
theorem storedValueIsReadBack : Obligations.StoredValueIsReadBack := by
  intro s v b x l hready hpos hmax hx
  refine ⟨fun st hin hbits => ?contiguous, fun ds hlength hascending hin hbits => ?list⟩
  case contiguous =>
    have hl : (BitVec.ofNat 16 l).toNat = l := (BitVec.toNat_ofNat _ _).trans (Nat.mod_eq_of_lt (by omega))
    have hfield : ∀ w m, l ≤ m → s.field w v (resolveContig b.toNat st.toNat (BitVec.ofNat 16 l).toNat m)
        = .ok (BitVec.ofNat w x.toNat) := fun w m hm => by
      rw [hl]
      exact State.field_contig_stored w hready hpos hm hx hin hbits
    exact ⟨(readsField_getlong v b st _).answers_long (op := 3#4) rfl (hfield 64 64 hmax),
      fun hshort => (readsField_getint v b st _).answers_int (op := 2#4) rfl (hfield 32 32 hshort)⟩
  case list =>
    subst hlength
    have hfield : ∀ w m, ds.length ≤ m → s.field w v (resolveList b.toNat (ds.map BitVec.toNat) m)
        = .ok (BitVec.ofNat w x.toNat) := fun w m hm =>
      State.field_halves_stored w hready (List.ne_nil_of_length_pos hpos) hm hx hascending hin hbits
    exact ⟨(readsField_getlongx v b ds).answers_long (op := 5#4) rfl (hfield 64 64 hmax),
      fun hshort => (readsField_getintx v b ds).answers_int (op := 4#4) rfl (hfield 32 32 hshort)⟩

end Sys2Proof.Machine
end

section
/-! Sub-range views (spec/41_bit_slice.md R120 to R124): what a successful SUBBUF answers, how its child view lies in the
parent, and what a read through the child answers. The shared fact is that index `i` of the child is index `startBit + i` of
the parent, so that a read that succeeds through the child succeeds through the parent with the same result. -/

namespace Sys2Proof.Machine

/-- The bits `st .. e-1` of `v` form a slice: SUBBUF passes its prologue and both its checks (R121). -/
structure State.Slice (s : State) (v : View) (st e : Half) : Prop where
  parent : s.Ready v
  len_le : s.len ≤ 65535
  ordered : st.toNat ≤ e.toNat
  inside : e.toNat ≤ v.vlen.toNat

/-! ## The child view in its parent (R120, R121) -/

section
variable {s : State} {v : View} {st e : Half}

/-- The base of the child does not wrap: it is an address of the store. -/
theorem State.Slice.vbase (h : s.Slice v st e) : (subView v st e).vbase.toNat = v.vbase.toNat + st.toNat := by
  obtain ⟨⟨-, hvalid⟩, hlen, hordered, hinside⟩ := h
  exact BitVec.toNat_add_of_lt (show v.vbase.toNat + st.toNat < 2 ^ 16 by omega)

theorem State.Slice.vlen (h : s.Slice v st e) : (subView v st e).vlen.toNat = e.toNat - st.toNat :=
  BitVec.toNat_sub_of_le h.ordered

theorem State.Slice.within_parent (h : s.Slice v st e) :
    v.vbase.toNat ≤ (subView v st e).vbase.toNat
      ∧ (subView v st e).vbase.toNat + (subView v st e).vlen.toNat ≤ v.vbase.toNat + v.vlen.toNat := by
  have hordered := h.ordered
  have hinside := h.inside
  rw [h.vbase, h.vlen]
  omega

/-- A child is a valid view: what lies in a valid parent lies in the store (R122). -/
theorem State.Slice.ready (h : s.Slice v st e) : s.Ready (subView v st e) :=
  ⟨h.parent.1, h.within_parent.2.trans h.parent.2⟩

/-- Index `i` of the child is index `i + st` of the parent: the same store bit (R122). -/
theorem State.Slice.bit (h : s.Slice v st e) (i : Nat) :
    s.bit ((subView v st e).vbase.toNat + i) = s.bit (v.vbase.toNat + (i + st.toNat)) := by
  rw [h.vbase, Nat.add_assoc, Nat.add_comm st.toNat]

/-- An index of the child, moved by `st`, is an index of the parent. -/
theorem State.Slice.index_lt (h : s.Slice v st e) {i : Nat} (hi : i < (subView v st e).vlen.toNat) :
    i + st.toNat < v.vlen.toNat := by
  have hinside := h.inside
  rw [h.vlen] at hi
  omega

/-- SUBBUF answers the child view (R121). -/
theorem State.Slice.exec (h : s.Slice v st e) :
    exec (.subbuf v st e) s = .next (s.respond 6#4 0 (viewWord (subView v st e)) 0) :=
  exec_of_result_ok rfl <| (State.prologue_bind_of_ready h.parent _).trans <|
    (if_neg (Nat.not_lt.mpr h.ordered)).trans (if_neg (Nat.not_lt.mpr h.inside))

end

/-- Settles O32: the slice is answered as one response, and its base and length do not wrap. -/
theorem subbufAnswersTheNarrowerView : Obligations.SubbufAnswersTheNarrowerView := by
  intro s v st e hready hlen hordered hinside
  have h : s.Slice v st e := ⟨hready, hlen, hordered, hinside⟩
  exact ⟨_, (subView v st e).vbase, (subView v st e).vlen, h.exec, h.vbase, h.vlen, s.respond_only 6#4 _ _⟩

/-! ## Slices compose (R123) -/

/-- Two views with the same base and length, as numbers, are the same view. -/
theorem view_eq_of_toNat {u v : View} (hbase : u.vbase.toNat = v.vbase.toNat) (hlen : u.vlen.toNat = v.vlen.toNat) :
    u = v := by
  cases u
  cases v
  exact congrArg₂ View.mk (BitVec.eq_of_toNat_eq hbase) (BitVec.eq_of_toNat_eq hlen)

section
variable {s : State} {v : View} {s1 e1 s2 e2 s12 e12 : Half}

/-- A slice of a slice is a slice of the view it was taken from. -/
theorem State.Slice.comp (houter : s.Slice v s1 e1) (hinner : s.Slice (subView v s1 e1) s2 e2)
    (hs : s12.toNat = s1.toNat + s2.toNat) (he : e12.toNat = s1.toNat + e2.toNat) : s.Slice v s12 e12 := by
  have hinner_ordered := hinner.ordered
  have hinner_inside := hinner.inside
  have hordered := houter.ordered
  have hinside := houter.inside
  rw [houter.vlen] at hinner_inside
  exact ⟨houter.parent, houter.len_le, by omega, by omega⟩

/-- The view of a slice of a slice is that of the one slice with the starts added. -/
theorem State.Slice.subView_subView (houter : s.Slice v s1 e1) (hinner : s.Slice (subView v s1 e1) s2 e2)
    (hs : s12.toNat = s1.toNat + s2.toNat) (he : e12.toNat = s1.toNat + e2.toNat) :
    subView (subView v s1 e1) s2 e2 = subView v s12 e12 := by
  have hone := houter.comp hinner hs he
  apply view_eq_of_toNat
  · rw [hinner.vbase, houter.vbase, hone.vbase, hs, Nat.add_assoc]
  · rw [hinner.vlen, hone.vlen, hs, he, Nat.add_sub_add_left]

end

/-- Settles O34: all three slicings succeed, and the last two give the same view. -/
theorem slicesCompose : Obligations.SlicesCompose := by
  intro s v s1 e1 s2 e2 s12 e12 hready hlen hordered1 hinside1 hordered2 hinside2 hs he
  have houter : s.Slice v s1 e1 := ⟨hready, hlen, hordered1, hinside1⟩
  have hinner : s.Slice (subView v s1 e1) s2 e2 := ⟨houter.ready, hlen, hordered2, hinside2.trans_eq houter.vlen.symm⟩
  have hexec := (houter.comp hinner hs he).exec
  rw [← houter.subView_subView hinner hs he] at hexec
  exact ⟨_, _, _, _, houter.exec, s.respond_sends 6#4 0 _ _, hinner.exec, s.respond_sends 6#4 0 _ _,
    hexec, s.respond_sends 6#4 0 _ _⟩

/-! ## Reads that succeed -/

section
variable {s : State} {v : View}

/-- GET in bounds is the bit (R97). -/
theorem getResult_ok {k : Half} (hready : s.Ready v) (h : k.toNat < v.vlen.toNat) :
    getResult v k s = .ok (0, (bit1 (s.bit (v.vbase.toNat + k.toNat))).setWidth 32) :=
  (State.prologue_bind_of_ready hready _).trans (if_neg (Nat.not_le.mpr h))

variable {i j : Instr} {result result' : Except ErrCode (Word × Word)} {p : Word × Word}

/-- A command whose result is a payload answers code 0. -/
theorem answers_of_result_ok (hexec : exec i s = .next (s.answer i result)) (h : result = .ok p) : s.Answers i :=
  ⟨_, _, exec_of_result_ok hexec h, s.respond_sends _ _ _ _, Response.code_mk _ _ _ _⟩

/-- Two commands with the same payload as their result answer alike. -/
theorem answerAlike_of_result_ok (hi : exec i s = .next (s.answer i result)) (hj : exec j s = .next (s.answer j result'))
    (h : result = .ok p) (h' : result' = .ok p) : s.AnswerAlike i j :=
  ⟨_, _, _, _, exec_of_result_ok hi h, exec_of_result_ok hj h', s.respond_sends _ _ _ _, s.respond_sends _ _ _ _⟩

/-- One step sends one response: there is no other that it sent. -/
theorem State.Sends.unique {t : State} {r r' : Response} (h : s.Sends t r) (h' : s.Sends t r') : r = r' := by
  have hsent := (h.sent s.port).symm.trans (h'.sent s.port)
  rw [if_pos rfl, if_pos rfl] at hsent
  exact List.singleton_inj.mp (List.append_cancel_left hsent)

/-- A command that answers code 0 has a payload as its result: the code of an error is not 0. -/
theorem result_ok_of_code_zero {t : State} {r : Response} (hresult : exec i s = .next (s.answer i result))
    (hexec : exec i s = .next t) (hsends : s.Sends t r) (hcode : r.code = 0) : ∃ p, result = .ok p := by
  cases result with
  | ok p => exact ⟨p, rfl⟩
  | error e =>
    rw [hresult, State.answer_error] at hexec
    cases hexec
    rw [hsends.unique (s.raise_sends _ _ _), Response.code_mk] at hcode
    exact absurd hcode e.code_ne_zero

end

section
variable {w : Nat} {i : Instr} {v : View} {idx : Except ErrCode (List Nat)} {payload : BitVec w → Word × Word} {s : State}

theorem ReadsField.answers (hi : ReadsField i v idx payload) {x : BitVec w} (h : s.field w v idx = .ok x) :
    s.Answers i :=
  answers_of_result_ok (hi s) (congrArg (Except.map payload) h)

end

/-! ## Results kept from the child to the parent (R122)

Every read is a chain of steps of which each may fail. The parent view is the longer one, so a step may fail through the
child alone; where it succeeds through the child, it succeeds through the parent with the same value. -/

/-- Where the first computation succeeds, so does the second, with the same value. -/
def SuccessKept {α : Type} (x y : Except ErrCode α) : Prop := ∀ a, x = .ok a → y = .ok a

section
variable {α β : Type}

theorem SuccessKept.refl (x : Except ErrCode α) : SuccessKept x x := fun _ h => h

theorem SuccessKept.bind {x y : Except ErrCode α} {f g : α → Except ErrCode β} (hxy : SuccessKept x y)
    (hfg : ∀ a, SuccessKept (f a) (g a)) : SuccessKept (x >>= f) (y >>= g) := by
  intro b hb
  cases x with
  | error e => cases hb
  | ok a =>
    rw [hxy a rfl]
    exact hfg a b hb

end

/-! ### Descriptors with a moved base (R92, R93) -/

theorem resolveContig_add (b n st l m : Nat) :
    resolveContig (b + n) st l m = (resolveContig b st l m).map (List.map (· + n)) := by
  by_cases hbad : l = 0 ∨ m < l
  · rw [resolveContig_baddesc hbad, resolveContig_baddesc hbad]
    rfl
  · rw [resolveContig_ok (by omega) (by omega), resolveContig_ok (by omega) (by omega), Except.map, List.map_map]
    exact congrArg _ (List.map_congr_left fun k _ => by rw [Function.comp_apply]; omega)

theorem resolveList_add (b n : Nat) (ds : List Nat) (m : Nat) :
    resolveList (b + n) ds m = (resolveList b ds m).map (List.map (· + n)) := by
  by_cases hbad : ds = [] ∨ m < ds.length ∨ ¬ ds.Pairwise (· < ·)
  · rw [resolveList_baddesc hbad, resolveList_baddesc hbad]
    rfl
  · push Not at hbad
    obtain ⟨hne, hmax, hascending⟩ := hbad
    rw [resolveList_ok hne hmax hascending, resolveList_ok hne hmax hascending, Except.map, List.map_map]
    exact congrArg _ (List.map_congr_left fun d _ => Nat.add_right_comm b n d)

theorem resolveDesc_add (b n m : Nat) (fd : FieldDesc) :
    resolveDesc (b + n) m fd = (resolveDesc b m fd).map (List.map (· + n)) := by
  cases fd with
  | contig st l => exact resolveContig_add b n st l m
  | list ds => exact resolveList_add b n ds m

/-! ### The steps of a read -/

section
variable {s : State} {v : View} {st e : Half}

/-- Extraction: indices in the child, moved by `st`, are in the parent and name the same bits (R95). -/
theorem State.Slice.extract (h : s.Slice v st e) (w : Nat) (idx : List Nat) :
    SuccessKept (s.extract w (subView v st e) idx) (s.extract w v (idx.map (· + st.toNat))) := by
  intro x hx
  rcases s.extract_cases w (subView v st e) idx with ⟨hin, hok⟩ | ⟨-, hoob⟩
  · rw [State.extract_ok (List.forall_mem_map.mpr fun i hi => h.index_lt (hin i hi)), List.map_map, ← hx, hok]
    exact congrArg _ (congrArg _ (congrArg _ (List.map_congr_left fun i _ => (h.bit i).symm)))
  · rw [hoob] at hx
    cases hx

/-- A descriptor resolved and extracted, from a base that lies `st` further on in the parent. -/
theorem State.Slice.resolve_extract (h : s.Slice v st e) (w : Nat) (idx : Except ErrCode (List Nat)) :
    SuccessKept (idx >>= s.extract w (subView v st e)) (idx.map (List.map (· + st.toNat)) >>= s.extract w v) := by
  cases idx with
  | error c => exact SuccessKept.refl (.error c)
  | ok is => exact h.extract w is

theorem State.Slice.field (h : s.Slice v st e) (w : Nat) (idx : Except ErrCode (List Nat)) :
    SuccessKept (s.field w (subView v st e) idx) (s.field w v (idx.map (List.map (· + st.toNat)))) := by
  rw [State.field_ready h.ready, State.field_ready h.parent]
  exact h.resolve_extract w idx

theorem State.Slice.tableField (h : s.Slice v st e) (b : Nat) (fd : FieldDesc) :
    SuccessKept (s.tableField (subView v st e) b fd) (s.tableField v (b + st.toNat) fd) := by
  rw [State.tableField, State.tableField, resolveDesc_add]
  exact h.resolve_extract 32 _

theorem State.Slice.opcodeAt (h : s.Slice v st e) (b : Nat) :
    SuccessKept (s.opcodeAt (subView v st e) b) (s.opcodeAt v (b + st.toNat)) := by
  rw [State.opcodeAt, State.opcodeAt, resolveContig_add, ← bind_assoc, ← bind_assoc]
  exact (h.resolve_extract 32 _).bind fun _ => SuccessKept.refl _

/-- By the kind of the opcode's table entry: the same field decides through the parent (R135). -/
theorem State.Slice.lengthByKind (h : s.Slice v st e) (b : Nat) (opc : BitVec 8) (kind : LenKind) :
    SuccessKept (s.lengthByKind (subView v st e) b opc kind) (s.lengthByKind v (b + st.toNat) opc kind) := by
  cases kind with
  | unknown => exact SuccessKept.refl _
  | fixed l => exact SuccessKept.refl _
  | lenField fd => exact (h.tableField b fd).bind fun _ => SuccessKept.refl _
  | countTable fd t1 t2 t3 t4 => exact (h.tableField b fd).bind fun _ => SuccessKept.refl _

/-- GETLEN: prologue, opcode octet, table entry (R135). -/
theorem State.Slice.getlenResult (h : s.Slice v st e) {b bst : Half} (hb : bst.toNat = b.toNat + st.toNat) :
    SuccessKept (getlenResult (subView v st e) b s) (getlenResult v bst s) := by
  rw [Machine.getlenResult, Machine.getlenResult, State.prologue_ok h.ready, State.prologue_ok h.parent, hb]
  exact (SuccessKept.refl _).bind fun _ => (h.opcodeAt b.toNat).bind fun opc =>
    (h.lengthByKind b.toNat opc _).bind fun _ => SuccessKept.refl _

/-- A field command that succeeds through the child answers as its twin through the parent, whose descriptor resolves `st`
further on. -/
theorem State.Slice.field_alike (h : s.Slice v st e) {w : Nat} {i j : Instr} {idx idx' : Except ErrCode (List Nat)}
    {payload : BitVec w → Word × Word} {x : BitVec w} (hi : ReadsField i (subView v st e) idx payload)
    (hj : ReadsField j v idx' payload) (hidx : idx' = idx.map (List.map (· + st.toNat)))
    (hx : s.field w (subView v st e) idx = .ok x) : s.AnswerAlike i j := by
  subst hidx
  exact answerAlike_of_result_ok (hi s) (hj s) (congrArg (Except.map payload) hx)
    (congrArg (Except.map payload) (h.field w idx x hx))

end

/-- Settles O33: what succeeds through the child succeeds through the parent with the same result, and every read in the
child's bounds succeeds. -/
theorem childViewReadsTheParentsBits : Obligations.ChildViewReadsTheParentsBits := by
  intro s v st e hready hlen hordered hinside
  have h : s.Slice v st e := ⟨hready, hlen, hordered, hinside⟩
  refine ⟨h.within_parent.1, h.within_parent.2, h.ready, fun k kst hk hin => ?get, fun b bst hb =>
    ⟨fun f l hpos hin => ?contiguous, fun ds hne hascending hin => ?listed, fun t r hexec hsends hcode => ?getlen⟩⟩
  case get =>
    have hparent := getResult_ok h.parent (k := kst) (hk ▸ h.index_lt hin)
    rw [hk, ← h.bit k.toNat] at hparent
    exact answerAlike_of_result_ok rfl rfl (getResult_ok h.ready hin) hparent
  case contiguous =>
    have hmoved : ∀ m, resolveContig bst.toNat f.toNat l.toNat m
        = (resolveContig b.toNat f.toNat l.toNat m).map (List.map (· + st.toNat)) := fun m => by
      rw [hb, resolveContig_add]
    exact ⟨fun hmax => h.field_alike (readsField_getint _ b f l) (readsField_getint v bst f l) (hmoved 32)
        (State.field_contig_ok 32 h.ready hpos hmax hin),
      fun hmax => h.field_alike (readsField_getlong _ b f l) (readsField_getlong v bst f l) (hmoved 64)
        (State.field_contig_ok 64 h.ready hpos hmax hin)⟩
  case listed =>
    have hmoved : ∀ m, resolveList bst.toNat (ds.map BitVec.toNat) m
        = (resolveList b.toNat (ds.map BitVec.toNat) m).map (List.map (· + st.toNat)) := fun m => by
      rw [hb, resolveList_add]
    exact ⟨fun hmax => h.field_alike (readsField_getintx _ b ds) (readsField_getintx v bst ds) (hmoved 32)
        (State.field_halves_ok 32 h.ready hne hmax hascending hin),
      fun hmax => h.field_alike (readsField_getlongx _ b ds) (readsField_getlongx v bst ds) (hmoved 64)
        (State.field_halves_ok 64 h.ready hne hmax hascending hin)⟩
  case getlen =>
    obtain ⟨p, hp⟩ := result_ok_of_code_zero rfl hexec hsends hcode
    exact answerAlike_of_result_ok rfl rfl hp (h.getlenResult hb p hp)

/-- Settles O35: the slice is `8 * octets` bits long, so what goes past them is out of its bounds; in the parent's bounds a
read succeeds. -/
theorem sliceEnforcesTheDeclaredLength : Obligations.SliceEnforcesTheDeclaredLength := by
  intro s v b e octets hready hlen hend hinside
  have h : s.Slice v b e := ⟨hready, hlen, by omega, hinside⟩
  have hvlen : (subView v b e).vlen.toNat = 8 * octets := by rw [h.vlen, hend, Nat.add_sub_cancel_left]
  have hbase : (0 : Half).toNat = 0 := rfl
  refine ⟨fun k bk hout _ hin => ?get, fun f l hpos hout hin => ?contiguous,
    fun ds hne hascending hout hin => ?listed⟩
  case get =>
    exact ⟨exec_of_result_error rfl (getResult_oob h.ready (hvlen.trans_le hout)),
      answers_of_result_ok rfl (getResult_ok hready hin)⟩
  case contiguous =>
    have hpast : (subView v b e).vlen.toNat < (0 : Half).toNat + f.toNat + l.toNat := by
      rwa [hvlen, hbase, Nat.zero_add]
    exact ⟨fun hmax => ⟨(readsField_getint _ 0 f l).exec_error (State.field_contig_oob 32 h.ready hpos hmax hpast),
        (readsField_getint v b f l).answers (State.field_contig_ok 32 hready hpos hmax hin)⟩,
      fun hmax => ⟨(readsField_getlong _ 0 f l).exec_error (State.field_contig_oob 64 h.ready hpos hmax hpast),
        (readsField_getlong v b f l).answers (State.field_contig_ok 64 hready hpos hmax hin)⟩⟩
  case listed =>
    have hpast : ∃ d ∈ ds, (subView v b e).vlen.toNat ≤ (0 : Half).toNat + d.toNat := by
      simpa only [hvlen, hbase, Nat.zero_add] using hout
    exact ⟨fun hmax =>
        ⟨(readsField_getintx _ 0 ds).exec_error (State.field_halves_oob 32 h.ready hne hmax hascending hpast),
          (readsField_getintx v b ds).answers (State.field_halves_ok 32 hready hne hmax hascending hin)⟩,
      fun hmax =>
        ⟨(readsField_getlongx _ 0 ds).exec_error (State.field_halves_oob 64 h.ready hne hmax hascending hpast),
          (readsField_getlongx v b ds).answers (State.field_halves_ok 64 hready hne hmax hascending hin)⟩⟩

end Sys2Proof.Machine
end

section
/-! Structure lengths (spec/42_length_resolver.md R130 to R141): what GETLEN answers on a ready view, by the kind of the
opcode's table entry, and which errors it can raise. The descriptor an entry names is valid (R131), so that a field of it
fails only where it is not wholly in the view. -/

namespace Sys2Proof

/-! ## The descriptor of a table entry (R130 to R132) -/

/-- The descriptor of the field that decides a length: the length field or the count field. -/
def LenKind.field? : LenKind → Option FieldDesc
  | .unknown => none
  | .fixed _ => none
  | .lenField fd => some fd
  | .countTable fd _ _ _ _ => some fd

/-- The descriptor of a valid entry is valid (R131). -/
theorem LenKind.field?_valid {kind : LenKind} {fd : FieldDesc} (hvalid : kind.valid = true)
    (hfield : kind.field? = some fd) : fd.valid 16 = true := by
  cases kind with
  | unknown => cases hfield
  | fixed n => cases hfield
  | lenField fd' =>
    cases hfield
    exact hvalid
  | countTable fd' t1 t2 t3 t4 =>
    cases hfield
    rw [LenKind.valid, Bool.and_eq_true] at hvalid
    exact hvalid.1

theorem Cfg.field_valid {c : Cfg} {opc : BitVec 8} {fd : FieldDesc} (hfield : (c.kindOf opc).field? = some fd) :
    fd.valid 16 = true :=
  LenKind.field?_valid (c.kindOf_valid opc) hfield

/-- With `WF_SRC` every entry keeps its length field in the first two octets (R132 (a)). -/
theorem Cfg.kindOf_inHeader {c : Cfg} (h : c.wfSrc = true) (opc : BitVec 8) : (c.kindOf opc).inHeader = true := by
  simp only [Cfg.wfSrc, Bool.and_eq_true, List.all_eq_true] at h
  obtain ⟨⟨hheader, -⟩, -⟩ := h
  exact hheader _ (by simp [Cfg.kindOf])

theorem LenKind.inHeader_lenField {fd : FieldDesc} :
    (LenKind.lenField fd).inHeader = true ↔ ∀ d ∈ fd.indices, d < 16 := by
  simp [LenKind.inHeader]

namespace Machine

/-! ## The result word (R134, R136, R138) -/

/-- The result word of a count table for the length its count selects, if any. -/
def countWord (opc : BitVec 8) : Option Nat → Word
  | some t => lengthWord true 3#2 opc (BitVec.ofNat 16 t)
  | none => lengthWord false 3#2 opc 0

/-- A count outside 1 to 4 selects no length (R138). -/
theorem countLength_eq_none {c : Nat} (h : c = 0 ∨ 4 < c) (t1 t2 t3 t4 : Nat) : countLength c t1 t2 t3 t4 = none := by
  rcases h with rfl | h
  · rfl
  · obtain ⟨k, rfl⟩ := Nat.exists_eq_add_of_le' h
    rfl

/-- The low half of a table field's word is the field's value in 16 bits. -/
theorem extractLsb'_half_ofNat (n : Nat) : (BitVec.ofNat 32 n).extractLsb' 0 16 = BitVec.ofNat 16 n := by
  apply BitVec.eq_of_toNat_eq
  simp only [BitVec.extractLsb'_toNat, BitVec.toNat_ofNat, Nat.shiftRight_zero]
  omega

/-! ## The result by the kind of the table entry (R135, R137) -/

section
variable {s : State} {v : View} {b : Nat} {opc : BitVec 8} {fd : FieldDesc}

/-- A length field in the view is answered as read. -/
theorem State.lengthByKind_lenField (hvalid : fd.valid 16 = true) (hin : ∀ d ∈ fd.indices, b + d < v.vlen.toNat) :
    s.lengthByKind v b opc (.lenField fd)
      = .ok (lengthWord true 2#2 opc (BitVec.ofNat 16
          (s.fieldValue fd.indices.length fun k => v.vbase.toNat + (b + fd.indices.getD k 0)))) := by
  rw [State.lengthByKind, State.tableField_ok hvalid hin, ← extractLsb'_half_ofNat]
  rfl

/-- A count field in the view selects the length: its value fits a word, so no count is taken for another. -/
theorem State.lengthByKind_countTable {t1 t2 t3 t4 : Nat} (hvalid : fd.valid 16 = true)
    (hin : ∀ d ∈ fd.indices, b + d < v.vlen.toNat) :
    s.lengthByKind v b opc (.countTable fd t1 t2 t3 t4)
      = .ok (countWord opc (countLength
          (s.fieldValue fd.indices.length fun k => v.vbase.toNat + (b + fd.indices.getD k 0)) t1 t2 t3 t4)) := by
  obtain ⟨-, -, hlength⟩ := resolveDesc_ok hvalid b
  have hcount := s.toNat_ofNat_fieldValue (fun k => v.vbase.toNat + (b + fd.indices.getD k 0))
    (hlength.trans (by decide : 16 ≤ 32))
  rw [State.lengthByKind, State.tableField_ok hvalid hin]
  simp only [bind, Except.bind, hcount]
  cases countLength _ t1 t2 t3 t4 <;> rfl

/-- A field that is not wholly in the view is the error of its entry, whichever kind that is. -/
theorem State.lengthByKind_oob {kind : LenKind} (hvalid : fd.valid 16 = true) (hfield : kind.field? = some fd)
    (hout : ∃ d ∈ fd.indices, v.vlen.toNat ≤ b + d) : s.lengthByKind v b opc kind = .error .oob := by
  cases kind with
  | unknown => cases hfield
  | fixed n => cases hfield
  | lenField fd' =>
    cases hfield
    rw [State.lengthByKind, State.tableField_oob hvalid hout]
    rfl
  | countTable fd' t1 t2 t3 t4 =>
    cases hfield
    rw [State.lengthByKind, State.tableField_oob hvalid hout]
    rfl

/-- An entry without a count table whose length field lies in the first two octets has a result wherever these octets are
in the view (R141). -/
theorem State.lengthByKind_ok_of_two_octets {kind : LenKind} (hvalid : kind.valid = true)
    (hheader : kind.inHeader = true) (hcount : kind.isCountTable = false) (hin : b + 16 ≤ v.vlen.toNat) :
    ∃ w, s.lengthByKind v b opc kind = .ok w := by
  cases kind with
  | unknown => exact ⟨_, rfl⟩
  | fixed n => exact ⟨_, rfl⟩
  | lenField fd =>
    have hbelow := LenKind.inHeader_lenField.mp hheader
    exact ⟨_, State.lengthByKind_lenField (LenKind.field?_valid hvalid rfl) fun d hd =>
      (Nat.add_lt_add_left (hbelow d hd) b).trans_le hin⟩
  | countTable fd t1 t2 t3 t4 => cases hcount

end

/-! ## GETLEN (R135) -/

section
variable {s : State} {v : View} {b : Half} {opc : BitVec 8}

/-- Past the prologue and the opcode octet the table entry decides. -/
theorem getlenResult_of_opcode (hready : s.Ready v) (hin : b.toNat + 8 ≤ v.vlen.toNat)
    (hopc : opc.toNat = s.fieldValue 8 fun k => v.vbase.toNat + (b.toNat + k)) :
    getlenResult v b s = (s.lengthByKind v b.toNat opc (s.cfg.kindOf opc)).map fun w => (0, w) := by
  refine (State.prologue_bind_of_ready hready _).trans ?_
  rw [State.opcodeAt_ok hin hopc]
  rfl

theorem exec_getlen_ok {w : Word} (hready : s.Ready v) (hin : b.toNat + 8 ≤ v.vlen.toNat)
    (hopc : opc.toNat = s.fieldValue 8 fun k => v.vbase.toNat + (b.toNat + k))
    (h : s.lengthByKind v b.toNat opc (s.cfg.kindOf opc) = .ok w) :
    exec (.getlen v b) s = .next (s.respond 7#4 0 0 w) :=
  exec_of_result_ok rfl <| (getlenResult_of_opcode hready hin hopc).trans (congrArg (Except.map _) h)

theorem exec_getlen_error {e : ErrCode} (hready : s.Ready v) (hin : b.toNat + 8 ≤ v.vlen.toNat)
    (hopc : opc.toNat = s.fieldValue 8 fun k => v.vbase.toNat + (b.toNat + k))
    (h : s.lengthByKind v b.toNat opc (s.cfg.kindOf opc) = .error e) :
    exec (.getlen v b) s = .next (s.raise e 7#4 (encode (.getlen v b))) :=
  exec_of_result_error rfl <| (getlenResult_of_opcode hready hin hopc).trans (congrArg (Except.map _) h)

/-- The errors GETLEN can raise: those of the prologue, and OOB for the opcode octet or the entry's field (R131, R135). -/
theorem getlenResult_error {e : ErrCode} (h : getlenResult v b s = .error e) :
    e = .nobuf ∨ e = .badview ∨ e = .oob := by
  rcases s.prologue_cases v with ⟨hready, -⟩ | ⟨-, herr⟩ | ⟨-, -, herr⟩
  · by_cases hin : b.toNat + 8 ≤ v.vlen.toNat
    · obtain ⟨opc, hopc⟩ := s.exists_opcode v b.toNat
      rw [getlenResult_of_opcode hready hin hopc] at h
      cases hkind : s.lengthByKind v b.toNat opc (s.cfg.kindOf opc) with
      | ok w =>
        rw [hkind] at h
        cases h
      | error e' =>
        rw [hkind] at h
        cases h
        exact .inr (.inr (State.lengthByKind_error (s.cfg.kindOf_valid opc) hkind))
    · rw [getlenResult_oob hready (Nat.lt_of_not_le hin)] at h
      cases h
      exact .inr (.inr rfl)
  · rw [getlenResult, State.prologue_bind_of_error herr] at h
    cases h
    exact .inl rfl
  · rw [getlenResult, State.prologue_bind_of_error herr] at h
    cases h
    exact .inr (.inl rfl)

end

/-- Settles O36: the table entry's result, by its kind, is the second word of the one response. -/
theorem getlenAnswersByKind : Obligations.GetlenAnswersByKind := by
  intro s v b opc hready hin hopc
  have answers : ∀ {kind w}, s.cfg.kindOf opc = kind → s.lengthByKind v b.toNat opc kind = .ok w →
      ∃ t, exec (.getlen v b) s = .next t ∧ s.SameData t ∧ s.SameFlags t ∧ s.Sends t ⟨responseHead 7#4 0, 0, w⟩ :=
    fun hkind h => ⟨_, exec_getlen_ok hready hin hopc (hkind ▸ h), s.respond_sameData _ _ _ _,
      s.respond_sameFlags _ _ _ _, s.respond_sends _ _ _ _⟩
  refine ⟨fun hkind => ?unknown, fun n hkind => ?fixed, fun fd hkind hfield => ?lenField,
    fun fd t1 t2 t3 t4 hkind hfield => ?countTable⟩
  case unknown => exact answers hkind rfl
  case fixed => exact answers hkind rfl
  case lenField =>
    exact answers hkind (State.lengthByKind_lenField (Cfg.field_valid (congrArg LenKind.field? hkind)) hfield)
  case countTable =>
    obtain ⟨t, hexec, hdata, hflags, hsends⟩ := answers hkind
      (State.lengthByKind_countTable (Cfg.field_valid (congrArg LenKind.field? hkind)) hfield)
    refine ⟨t, _, hexec, hdata, hflags, rfl, fun hc => ?_, fun hc => ?_, fun hc => ?_, fun hc => ?_, fun hc => ?none⟩
    case none =>
      rw [countLength_eq_none hc] at hsends
      exact hsends
    all_goals
      rw [hc] at hsends
      exact hsends

/-- Settles O37: the entry's descriptor is valid, so reading its field fails by the bounds check. -/
theorem getlenFieldOutsideTheViewRaisesOob : Obligations.GetlenFieldOutsideTheViewRaisesOob := by
  intro s v b opc fd hready hin hopc hkind hout
  have hfield : (s.cfg.kindOf opc).field? = some fd := by
    rcases hkind with hkind | ⟨t1, t2, t3, t4, hkind⟩ <;> rw [hkind] <;> rfl
  exact exec_getlen_error hready hin hopc (State.lengthByKind_oob (Cfg.field_valid hfield) hfield hout)

/-- Settles O38: the result is a payload, answered with code 0, or one of three errors. -/
theorem getlenNeverAnswersBaddesc : Obligations.GetlenNeverAnswersBaddesc := by
  intro s v b
  cases hresult : getlenResult v b s with
  | ok p => exact ⟨_, _, exec_of_result_ok rfl hresult, s.respond_sends _ _ _ _, .inl (Response.code_mk _ _ _ _)⟩
  | error e =>
    refine ⟨_, _, exec_of_result_error rfl hresult, s.raise_sends _ _ _, .inr ?_⟩
    rw [Response.code_mk]
    exact (getlenResult_error hresult).imp (congrArg _) (.imp (congrArg _) (congrArg _))

/-- Settles O39: the opcode octet and, by `WF_SRC`, a length field lie in the two octets. -/
theorem twoOctetsSufficeWithoutCountTable : Obligations.TwoOctetsSufficeWithoutCountTable := by
  intro s v b opc hready hsrc hin hopc hcount
  obtain ⟨w, hw⟩ := State.lengthByKind_ok_of_two_octets (s.cfg.kindOf_valid opc)
    (Cfg.kindOf_inHeader hsrc opc) hcount hin
  exact ⟨_, _, exec_getlen_ok hready (by omega) hopc hw, s.respond_sends _ _ _ _, Response.code_mk _ _ _ _,
    s.respond_sameFlags _ _ _ _, s.respond_sameData _ _ _ _⟩

end Machine

end Sys2Proof
end

section
/-! Host operations (spec/43_host_ops.md R151, R153; spec/60_exceptions.md R165, R172): which error LOAD and DISCARD raise,
and what they do to the block when they raise none. -/

namespace Sys2Proof.Machine

/-! ## The errors of LOAD (R151, R165, R172) -/

section
variable {s : State} {n : Half}

theorem loadError_priv (hport : s.port = .R) : loadError n s = some .priv := if_pos hport

theorem loadError_busy (hport : s.port = .H) (hloaded : s.loaded = true) : loadError n s = some .busy := by
  simp [loadError, hport, hloaded]

theorem loadError_cap (hport : s.port = .H) (hempty : s.loaded = false) (hlong : s.cfg.capBits < n.toNat) :
    loadError n s = some .cap := by
  simp [loadError, hport, hempty, hlong]

/-- A LOAD that meets an error ends in error entry; the buffer is not written. -/
theorem exec_load_error {e : ErrCode} (data : List Word) (h : loadError n s = some e) :
    exec (.load n data) s = .next (s.raise e 8#4 (encode (.load n data))) :=
  congrArg Host.Outcome.next <| by
    rw [loadNext, h]
    exact State.answer_error (.load n data) e s

/-- A LOAD that meets none writes the buffer and answers the root view. -/
theorem exec_load_ok (data : List Word) (hport : s.port = .H) (hempty : s.loaded = false)
    (hcap : n.toNat ≤ s.cfg.capBits) :
    exec (.load n data) s = .next ((s.install n.toNat data).respond 8#4 0 (viewWord ⟨0, n⟩) 0) :=
  congrArg Host.Outcome.next (loadNext_ok data hport hempty hcap)

end

/-- Settles O20: under each clause's conditions `loadError` is that clause's cause. -/
theorem loadErrorsInPriority : Obligations.LoadErrorsInPriority := fun _ _ data =>
  ⟨fun hport => exec_load_error data (loadError_priv hport),
    fun hport hloaded => exec_load_error data (loadError_busy hport hloaded),
    fun hport hempty hlong => exec_load_error data (loadError_cap hport hempty hlong)⟩

/-! ## DISCARD (R153, R165, R172) -/

section
variable {s : State}

theorem discardError_priv (hport : s.port = .R) : discardError s = some .priv := if_pos hport

theorem discardError_nobuf (hport : s.port = .H) (hempty : s.loaded = false) : discardError s = some .nobuf := by
  simp [discardError, hport, hempty]

theorem discardError_none (hport : s.port = .H) (hloaded : s.loaded = true) : discardError s = none := by
  simp [discardError, hport, hloaded]

/-- A DISCARD carries no operand, so the packet of an errored one is always the same three words (R75). -/
theorem encode_discard : encode .discard = [0x90000000#32, 0#32, 0#32] := by decide

/-- A DISCARD that meets an error ends in error entry; the buffer stays. -/
theorem exec_discard_error {e : ErrCode} (h : discardError s = some e) :
    exec .discard s = .next (s.raise e 9#4 [0x90000000#32, 0#32, 0#32]) :=
  congrArg Host.Outcome.next <| by
    rw [discardNext, h, ← encode_discard]
    exact State.answer_error .discard e s

/-- A DISCARD that meets none drops the buffer and answers zero words. -/
theorem exec_discard_ok (hport : s.port = .H) (hloaded : s.loaded = true) :
    exec .discard s = .next (s.drop.respond 9#4 0 0 0) :=
  congrArg Host.Outcome.next <| by
    rw [discardNext, discardError_none hport hloaded]
    exact State.answer_ok .discard (0, 0) s.drop

end

/-- Settles O21: under each clause's conditions `discardError` is that clause's cause. -/
theorem discardErrorsInPriority : Obligations.DiscardErrorsInPriority := fun _ =>
  ⟨fun hport => exec_discard_error (discardError_priv hport),
    fun hport hempty => exec_discard_error (discardError_nobuf hport hempty)⟩

/-- Settles O42: the dropped store lists no cell, and the rest is the frame of `drop` and `respond`. -/
theorem discardEmptiesTheBlock : Obligations.DiscardEmptiesTheBlock := fun s hport hloaded =>
  ⟨_, exec_discard_ok hport hloaded, rfl, rfl, Cells.read_nil, Cells.read_nil, s.drop.respond_sends 9#4 0 0 0,
    ⟨rfl, rfl, rfl, rfl⟩, rfl, rfl, rfl, rfl, rfl, rfl, rfl, rfl, rfl⟩

/-! ## What a LOAD stores (R151, R45) -/

/-- Bit `k` of the data words: the words in order, each from its most significant bit on (R45). -/
def dataBit (data : List Word) (k : Nat) : Bool := (data.getD (k / 32) 0).getLsbD (31 - k % 32)

section
variable (s : State) (n : Nat) (data : List Word)

/-- The store after a LOAD holds the data bits below `n`, and from `n` on what it held before. -/
theorem State.read_install_store (k : Nat) :
    Cells.read (s.install n data).store k = if k < n then some (dataBit data k) else Cells.read s.store k := by
  rw [State.install_store, Cells.read_writeRun, loadBits_length]
  by_cases hk : k < n
  · rw [if_pos (by omega), if_pos hk]
    exact loadBits_getElem? n data k hk
  · rw [if_neg (by omega), if_neg hk]

/-- A sideband of at least `n` confidences fills the cells of `CONF` below `n`. -/
theorem State.read_install_conf_of_lt {k : Nat} (hside : n ≤ s.sideband.length) (hk : k < n) :
    Cells.read (s.install n data).conf k = s.sideband[k]? := by
  rw [State.install_conf, Cells.read_writeRun, List.length_take, if_pos (by omega)]
  exact List.getElem?_take_of_lt hk

theorem State.read_install_conf_of_le {k : Nat} (hk : n ≤ k) :
    Cells.read (s.install n data).conf k = Cells.read s.conf k := by
  rw [State.install_conf, Cells.read_writeRun, List.length_take, if_neg (by omega)]

end

/-- Settles O40: the cells are those of `install`, and the rest is the frame of `install` and `respond`. -/
theorem loadCreatesTheBuffer : Obligations.LoadCreatesTheBuffer := by
  intro s n data _ hport hempty hcap
  have hstore := s.read_install_store n.toNat data
  exact ⟨_, exec_load_ok data hport hempty hcap, fun k hk => (hstore k).trans (if_pos hk),
    fun k hk => (hstore k).trans (if_neg (Nat.not_lt.mpr hk)),
    fun hside k hk => s.read_install_conf_of_lt n.toNat data hside hk,
    fun k hk => s.read_install_conf_of_le n.toNat data hk,
    rfl, rfl, (s.install n.toNat data).respond_sends 8#4 0 (viewWord ⟨0, n⟩) 0, ⟨rfl, rfl, rfl, rfl⟩,
    rfl, rfl, rfl, rfl, rfl, rfl, rfl, rfl, rfl⟩

/-! ## The same as writes of whole words (R8, R151) -/

/-- The `MemWrite` of data word `j` of a LOAD of `n` bits: its top `w` bits, `w = 32` but for a last partial word. -/
def writeDataWord (n : Nat) (data : List Word) (m : Memory) (j : Nat) : Memory :=
  let w := min 32 (n - 32 * j)
  Memory.memWrite (32 * j) w ((data.getD j 0).toNat / 2 ^ (32 - w)) m

section
variable (n : Nat) (data : List Word) (m : Memory)

/-- Bit `k` of the top `w` bits of a word, counted from the most significant one, is bit `k` of the word so counted. -/
theorem testBit_top_bits (x : Word) {w k : Nat} (hw : w ≤ 32) (hk : k < w) :
    (x.toNat / 2 ^ (32 - w)).testBit (w - 1 - k) = x.getLsbD (31 - k) := by
  rw [Nat.testBit_div_two_pow, BitVec.testBit_toNat]
  exact congrArg _ (by omega)

/-- The write of word `j` stores the data bits of the addresses it covers. -/
theorem read_writeDataWord (j a : Nat) :
    Cells.read (writeDataWord n data m j) a
      = if a / 32 = j ∧ a < n then some (dataBit data a) else Cells.read m a := by
  rw [writeDataWord, Memory.read_memWrite]
  by_cases ha : a / 32 = j ∧ a < n
  · obtain ⟨rfl, hn⟩ := ha
    rw [if_pos (by omega), if_pos ⟨rfl, hn⟩, testBit_top_bits _ (by omega) (by omega), dataBit]
    exact congrArg (fun i => some (BitVec.getLsbD _ (31 - i))) (by omega)
  · rw [if_neg (by omega), if_neg ha]

/-- After the writes of the first `count` words the store holds the data bits they carry, and elsewhere what it held. -/
theorem read_foldl_writeDataWord (count a : Nat) :
    Cells.read ((List.range count).foldl (writeDataWord n data) m) a
      = if a / 32 < count ∧ a < n then some (dataBit data a) else Cells.read m a := by
  induction count with
  | zero => simp
  | succ count ih =>
    rw [List.range_succ, List.foldl_append, List.foldl_cons, List.foldl_nil, read_writeDataWord, ih]
    by_cases hj : a / 32 = count ∧ a < n
    · rw [if_pos hj, if_pos (by omega)]
    · rw [if_neg hj]
      exact if_congr (by omega) rfl rfl

end

/-- A well-formed LOAD brings the words of all its bits (R74, R76). -/
theorem div_lt_length_of_load_wf {n : Half} {data : List Word} (hwf : (Instr.load n data).wf = true) {a : Nat}
    (ha : a < n.toNat) : a / 32 < data.length := by
  have hlength : data.length = dataWordCount n.toNat := of_decide_eq_true hwf
  rw [hlength, dataWordCount]
  omega

/-- Settles O41: both stores hold the data bits below `n` and elsewhere what was there before. -/
theorem loadIsTheMemWritesOfItsWords : Obligations.LoadIsTheMemWritesOfItsWords := by
  intro s n data hwf hport hempty hcap
  refine ⟨_, exec_load_ok data hport hempty hcap, fun a => ?_⟩
  have hwords : (a / 32 < data.length ∧ a < n.toNat) ↔ a < n.toNat :=
    and_iff_right_of_imp (div_lt_length_of_load_wf hwf)
  calc Cells.read (s.install n.toNat data).store a
      = if a < n.toNat then some (dataBit data a) else Cells.read s.store a := s.read_install_store n.toNat data a
    _ = if a / 32 < data.length ∧ a < n.toNat then some (dataBit data a) else Cells.read s.store a :=
        if_congr hwords.symm rfl rfl
    _ = Cells.read ((List.range data.length).foldl (writeDataWord n.toNat data) s.store) a :=
        (read_foldl_writeDataWord n.toNat data s.store data.length a).symm

end Sys2Proof.Machine
end

section
/-! Exceptions (spec/60_exceptions.md R161, R167 to R174): error entry, what a step does to the sticky error bits, what a
packet from the R-port cannot do, and the error account of a run. -/

namespace Sys2Proof.Machine

/-! ## The choice between the ports (R174) -/

section
variable {s : State}

theorem State.arbitrate_h (hH : s.hIn ≠ []) (hR : s.rIn = []) : s.arbitrate = some .H := by
  obtain ⟨o, rest, hoffers⟩ := List.exists_cons_of_ne_nil hH
  rw [State.arbitrate, hoffers, hR]

theorem State.arbitrate_r (hR : s.rIn ≠ []) (hH : s.hIn = []) : s.arbitrate = some .R := by
  obtain ⟨o, rest, hoffers⟩ := List.exists_cons_of_ne_nil hR
  rw [State.arbitrate, hoffers, hH]

theorem State.arbitrate_both (hH : s.hIn ≠ []) (hR : s.rIn ≠ []) : s.arbitrate = some (Config.arbiter s.turns) := by
  obtain ⟨o, rest, hoffersH⟩ := List.exists_cons_of_ne_nil hH
  obtain ⟨o', rest', hoffersR⟩ := List.exists_cons_of_ne_nil hR
  rw [State.arbitrate, hoffersH, hoffersR]

end

/-- Settles O9: the choice by what waits at the ports, and the step as the acceptance from the port chosen. -/
theorem eitherOfferingPortIsServed : Obligations.EitherOfferingPortIsServed := by
  intro s
  refine ⟨s.arbitrate_eq_none_iff, fun p harb hnone => ?_, State.arbitrate_h, State.arbitrate_r, State.arbitrate_both,
    fun p hreset hhalted harb => ?_⟩
  · obtain ⟨o, rest, hoffers⟩ := State.offers_of_arbitrate harb
    cases hoffers.symm.trans hnone
  · obtain ⟨o, rest, hoffers⟩ := State.offers_of_arbitrate harb
    rw [step_accept hreset hhalted harb hoffers, acceptFrom_cons hoffers]

/-! ## The one fault (R168) -/

/-- Settles O11: of all a step can do, only the halted block's is no next state. -/
theorem onlyAHaltedBlockIsStuck : Obligations.OnlyAHaltedBlockIsStuck := by
  intro s
  refine ⟨fun hhalted hreset => step_halted hreset hhalted, ?_⟩
  rcases step_cases s with ⟨-, h⟩ | ⟨hreset, hhalted, h⟩ | ⟨-, -, -, -, h⟩ | ⟨p, o, rest, -, -, -, -, h⟩
  · simp [h]
  · simp [h, hreset, hhalted]
  · simp [h]
  · obtain ⟨t, hrun⟩ := runPacket_next o.words (s.take p o)
    simp [h, hrun]

/-! ## Error entry (R167, R169) -/

/-- Settles O13, field by field. -/
theorem errorEntryRecordsTheFirstError : Obligations.ErrorEntryRecordsTheFirstError := by
  intro s e op ws
  refine ⟨fun hclear => ?_, fun hseen => ?_, rfl, rfl, s.raise_sends e op ws, s.raise_sameData e op ws⟩
  · simp [hclear]
  · simp [hseen]

/-! ## The sticky error bits (R168, R169, R171) -/

section
variable {s t : State}

/-- A packet leaves `DEBUG`, and leaves the error bits or notes one error in them. -/
theorem runPacket_flags {ws : List Word} (hrun : runPacket ws s = .next t) :
    t.debug = s.debug ∧ (s.SameFlags t ∨ ∃ e op, (s.noteError e op).SameFlags t) := by
  rcases runPacket_cases ws s with ⟨op, w1, w2, h⟩ | ⟨e, op, packet, h⟩ | ⟨n, data, -, -, -, -, h⟩ | ⟨-, -, -, h⟩ <;>
    cases h.symm.trans hrun
  case inr.inl => exact ⟨rfl, .inr ⟨e, op, rfl, rfl, rfl, rfl⟩⟩
  all_goals exact ⟨rfl, .inl ⟨rfl, rfl, rfl, rfl⟩⟩

/-- A step that is no reset starts from a block that is not halted; it leaves `DEBUG`, and leaves the error bits or notes
one error in them. -/
theorem step_flags (hstep : step s = .next t) (hreset : s.resetReq = false) :
    s.halted = false ∧ t.debug = s.debug ∧ (s.SameFlags t ∨ ∃ e op, (s.noteError e op).SameFlags t) := by
  rcases step_cases s with ⟨hreq, -⟩ | ⟨-, -, hstuck⟩ | ⟨-, hhalted, -, -, hidle⟩ | ⟨p, o, rest, -, hhalted, -, -, hrun⟩
  · cases hreset.symm.trans hreq
  · cases hstuck.symm.trans hstep
  · cases hidle.symm.trans hstep
    exact ⟨hhalted, rfl, .inl ⟨rfl, rfl, rfl, rfl⟩⟩
  · obtain ⟨hdebug, hsame | ⟨e, op, hnoted⟩⟩ := runPacket_flags (hrun.symm.trans hstep)
    · exact ⟨hhalted, hdebug, .inl ⟨hsame.halted, hsame.errSeen, hsame.fcode, hsame.fop⟩⟩
    · exact ⟨hhalted, hdebug, .inr ⟨e, op, hnoted.halted, hnoted.errSeen, hnoted.fcode, hnoted.fop⟩⟩

end

/-- Settles O15: noting a later error changes neither `FCODE` nor `FOP`. -/
theorem errorBitsStayUntilReset : Obligations.ErrorBitsStayUntilReset := by
  intro s t hstep hreset
  obtain ⟨-, hdebug, hsame | ⟨e, op, hnoted⟩⟩ := step_flags hstep hreset
  · exact ⟨hdebug, fun hseen => ⟨hsame.errSeen.trans hseen, hsame.fcode, hsame.fop⟩⟩
  · exact ⟨hdebug, fun hseen => ⟨hnoted.errSeen, hnoted.fcode.trans (if_pos hseen), hnoted.fop.trans (if_pos hseen)⟩⟩

/-- Settles O16: noting an error sets `HALTED` only where `DEBUG` is 1. -/
theorem releaseModeGoesOn : Obligations.ReleaseModeGoesOn := by
  intro s t hstep hreset hrelease
  obtain ⟨hhalted, -, hsame | ⟨e, op, hnoted⟩⟩ := step_flags hstep hreset
  · exact hsame.halted.trans hhalted
  · rw [hnoted.halted, State.noteError_halted, hhalted, hrelease]
    rfl

/-! ## The R-port (R172) -/

/-- A packet in execution from the R-port changes no data and sends nothing on the H-port: of LOAD and DISCARD only the
errors are left to it. -/
theorem runPacket_rPort {ws : List Word} {s t : State} (hport : s.port = .R) (hrun : runPacket ws s = .next t) :
    s.SameData t ∧ t.hOut = s.hOut := by
  have hquiet : ∀ {u r}, s.Sends u r → u.hOut = s.hOut := fun hsends => by simp [hsends.1, hport]
  rcases runPacket_cases ws s with ⟨op, w1, w2, h⟩ | ⟨e, op, packet, h⟩ | ⟨n, data, -, hH, -⟩ | ⟨-, hH, -⟩
  · cases h.symm.trans hrun
    exact ⟨s.respond_sameData op 0 w1 w2, hquiet (s.respond_sends op 0 w1 w2)⟩
  · cases h.symm.trans hrun
    exact ⟨s.raise_sameData e op packet, hquiet (s.raise_sends e op packet)⟩
  all_goals cases hport.symm.trans hH

/-- Settles O46: acceptance itself changes no data, and the packet then runs at the R-port's privilege. -/
theorem rPortNeverChangesTheBuffer : Obligations.RPortNeverChangesTheBuffer := by
  intro s t haccept
  cases hoffers : s.offers .R with
  | nil =>
    cases (acceptFrom_nil hoffers).symm.trans haccept
    exact ⟨rfl, rfl, rfl, rfl, rfl, rfl⟩
  | cons o rest =>
    obtain ⟨hsame, hquiet⟩ := runPacket_rPort (s := s.take .R o) rfl ((acceptFrom_cons hoffers).symm.trans haccept)
    exact ⟨hsame.store, hsame.conf, hsame.len, hsame.loaded, hsame.cfg, hquiet⟩

/-! ## Repeating a requester command (R52, R169) -/

/-- States with the same data agree on what is loaded. -/
theorem State.SameData.sameBuffer {s t : State} (h : s.SameData t) : s.SameBuffer t where
  cfg := h.cfg.symm
  loaded := h.loaded.symm
  len := h.len.symm
  bit := fun a _ => by rw [State.bit, State.bit, h.store, h.epoch]

/-- Settles O51: the first run keeps the data, and the answer is a function of them. -/
theorem repeatedCommandRepeatsTheAnswer : Obligations.RepeatedCommandRepeatsTheAnswer := by
  intro s i v hview
  obtain ⟨t, -, hexec, -, hdata, -⟩ := requesterCommandsChangeNoData s i v hview
  obtain ⟨result, hs, ht⟩ := hdata.sameBuffer.exec_requester i hview
  obtain ⟨r, hr, hr'⟩ := hdata.sameBuffer.answer_sends i result
  cases hs.symm.trans hexec
  exact ⟨_, _, r, hs, ht, hr, hr'⟩

/-! ## ERRSEEN and the codes of the responses (R167, R170) -/

/-- Settles O52: a response with code 0 leaves `ERRSEEN`, any other sets it. -/
theorem errseenStaysClearIffTheResponseIsOk : Obligations.ErrseenStaysClearIffTheResponseIsOk := by
  intro s p o rest hclear hreset hhalted harb hoffers
  obtain ⟨t, r, hrun, hsends, -, -, -, hok, herr⟩ := runPacket_response o.words (s.take p o)
  refine ⟨t, r, (step_accept hreset hhalted harb hoffers).trans hrun, ?_, fun hstill => ?_, fun hcode => ?_⟩
  · rw [hsends.sent, State.take_port, State.take_sent, if_pos rfl]
  · by_contra hcode
    cases (herr hcode).1.symm.trans hstill
  · exact (hok hcode).1.trans hclear

/-- The error account of a run from `s` to `t` that sent `log q` on each port `q`: `ERRSEEN` tells whether one of these
responses has a code other than 0, and the block is halted exactly when one has and it is in debug mode. -/
structure State.ErrorAccount (s t : State) (log : Port → List Response) : Prop where
  sent : ∀ q, t.sent q = s.sent q ++ log q
  debug : t.debug = s.debug
  clear_iff : t.errSeen = false ↔ ∀ q, ∀ r ∈ log q, r.code = 0
  halted_iff : t.halted = true ↔ t.debug = true ∧ t.errSeen = true

section
variable {s t u : State} {run : Run} {log : Port → List Response}

/-- A block without an error that is not halted starts an empty account. -/
theorem State.ErrorAccount.start (hclear : s.errSeen = false) (hrunning : s.halted = false) :
    s.ErrorAccount s fun _ => [] where
  sent q := (List.append_nil _).symm
  debug := rfl
  clear_iff := by simp [hclear]
  halted_iff := by simp [hclear, hrunning]

theorem State.ErrorAccount.offer (h : s.ErrorAccount t log) (p : Port) (o : Offer) : s.ErrorAccount (t.offer p o) log :=
  ⟨fun q => (t.offer_sent p o q).trans (h.sent q), h.debug, h.clear_iff, h.halted_iff⟩

theorem Port.forall_iff {P : Port → Prop} : (∀ q, P q) ↔ P .H ∧ P .R :=
  ⟨fun h => ⟨h .H, h .R⟩, fun ⟨hH, hR⟩ q => by cases q <;> assumption⟩

/-- A response sent on port `p` is entered at the end of that port's log. -/
def logResponse (log : Port → List Response) (p : Port) (r : Response) : Port → List Response :=
  fun q => if q = p then log q ++ [r] else log q

theorem logResponse_all_ok_iff (p : Port) (r : Response) :
    (∀ q, ∀ x ∈ logResponse log p r q, x.code = 0) ↔ (∀ q, ∀ x ∈ log q, x.code = 0) ∧ r.code = 0 := by
  rw [Port.forall_iff, Port.forall_iff]
  cases p with
  | H => simp [logResponse, or_imp, forall_and, and_right_comm]
  | R => simp [logResponse, or_imp, forall_and, and_assoc]

/-- A step that is no reset enters at most one response, and the error bits follow its code. -/
theorem State.ErrorAccount.step (h : s.ErrorAccount t log) (hreset : t.resetReq = false) (hstep : step t = .next u) :
    ∃ log', s.ErrorAccount u log' := by
  rcases step_books hreset hstep with ⟨rfl, -⟩ | ⟨p, o, rest, r, -, hrunning, -, hsent, -, hdebug, hok, herr⟩
  · exact ⟨log, h⟩
  refine ⟨logResponse log p r, fun q => ?_, hdebug.trans h.debug, ?_, ?_⟩
  · rw [hsent, logResponse, h.sent]
    split
    · rw [List.append_assoc]
    · rfl
  · rw [logResponse_all_ok_iff, ← h.clear_iff]
    by_cases hcode : r.code = 0
    · rw [(hok hcode).1, and_iff_left hcode]
    · exact iff_of_false (by simp [(herr hcode).1]) fun hall => hcode hall.2
  · by_cases hcode : r.code = 0
    · obtain ⟨hseen, hhalted⟩ := hok hcode
      rw [hhalted, hdebug, hseen, ← h.halted_iff, hrunning]
    · obtain ⟨hseen, hhalted⟩ := herr hcode
      simp [hhalted, hdebug, hseen]

/-- Every run from a block without an error that is not halted has an error account, by induction on the run. -/
theorem State.Reaches.errorAccount (h : s.Reaches run t) (hclear : s.errSeen = false) (hrunning : s.halted = false) :
    ∃ log, s.ErrorAccount t log := by
  induction h with
  | start => exact ⟨_, .start hclear hrunning⟩
  | offer p o _ ih =>
    obtain ⟨log, haccount⟩ := ih
    exact ⟨log, haccount.offer p o⟩
  | step _ hreset hstep ih =>
    obtain ⟨log, haccount⟩ := ih
    exact haccount.step hreset hstep

end

/-- Settles O56: what the account of the run says, read for the two ports. -/
theorem errseenIsClearIffEveryResponseOfTheRunIsOk : Obligations.ErrseenIsClearIffEveryResponseOfTheRunIsOk := by
  intro s t run hreaches hclear hrunning
  obtain ⟨log, haccount⟩ := hreaches.errorAccount hclear hrunning
  have hclear_iff : t.errSeen = false ↔ ∀ r ∈ log .H ++ log .R, r.code = 0 := by
    rw [haccount.clear_iff, Port.forall_iff, List.forall_mem_append]
  have hseen_iff : t.errSeen = true ↔ ∃ r ∈ log .H ++ log .R, r.code ≠ 0 := by
    rw [← Bool.not_eq_false, hclear_iff]
    push Not
    rfl
  refine ⟨log .H, log .R, haccount.sent .H, haccount.sent .R, hclear_iff, ?_⟩
  calc s.EndsBadly run t
      ↔ t.halted = true := ⟨fun hbad => hbad.halted, fun hhalted => ⟨hreaches, hhalted⟩⟩
    _ ↔ s.debug = true ∧ ∃ r ∈ log .H ++ log .R, r.code ≠ 0 := by
        rw [haccount.halted_iff, haccount.debug, hseen_iff]

end Sys2Proof.Machine
end

section
/-! Reset, the configuration and the end of a run (spec/70_reset_and_hazards.md R190, R191, R193, R195; spec/10_state.md
R28, R30, R33). -/

namespace Sys2Proof.Machine

/-! ## Reset (R33, R190) -/

/-- After a reset `STATUS` shows the sampled strap in `DEBUG` and nothing else (R33). -/
theorem State.applyReset_status (s : State) : s.applyReset.status = if s.strap then 2#32 else 0#32 := by
  apply BitVec.eq_of_toNat_eq
  rw [State.status_toNat]
  cases hstrap : s.strap <;> simp [hstrap]

/-- Settles O12: the step performs the reset, and each piece of state is what the reset writes there. -/
theorem resetGivesTheResetState : Obligations.ResetGivesTheResetState := fun s hreset =>
  ⟨s.applyReset, step_reset hreset, rfl, rfl, rfl, rfl, rfl, rfl, rfl, rfl, rfl, rfl, rfl, rfl, rfl, rfl, rfl,
    fun _ => rfl, fun _ => rfl, s.applyReset_status⟩

/-! ## The configuration and the strap (R28, R30, R193) -/

/-- No packet changes the configuration or the strap, whatever it does. -/
theorem runPacket_config {ws : List Word} {s t : State} (hrun : runPacket ws s = .next t) :
    t.cfg = s.cfg ∧ t.strap = s.strap := by
  rcases runPacket_cases ws s with ⟨op, w1, w2, h⟩ | ⟨e, op, packet, h⟩ | ⟨n, data, -, -, -, -, h⟩ | ⟨-, -, -, h⟩
  all_goals
    cases h.symm.trans hrun
    exact ⟨rfl, rfl⟩

/-- Settles O47, by the cases of a step; that `DEBUG` stays without a reset is part of O15. -/
theorem configurationNeverChanges : Obligations.ConfigurationNeverChanges := by
  intro s t hstep
  have hdebug : s.resetReq = false → t.debug = s.debug := fun hreset => (errorBitsStayUntilReset s t hstep hreset).1
  rcases step_cases s with ⟨-, hreset⟩ | ⟨-, -, hstuck⟩ | ⟨-, -, -, -, hidle⟩ | ⟨p, o, rest, -, -, -, -, hrun⟩
  · cases hreset.symm.trans hstep
    exact ⟨rfl, rfl, hdebug⟩
  · cases hstuck.symm.trans hstep
  · cases hidle.symm.trans hstep
    exact ⟨rfl, rfl, hdebug⟩
  · obtain ⟨hcfg, hstrap⟩ := runPacket_config (hrun.symm.trans hstep)
    exact ⟨hcfg, hstrap, hdebug⟩

/-! ## Runs in release mode (R169, R195)

Offer the whole run first, then let the block work off what waits: each step of a block that serves answers one packet
and leaves a block that serves. -/

/-- The block serves packets without end: it is not halted, no error can halt it, and no reset is applied. -/
structure State.Serving (s : State) : Prop where
  resetReq : s.resetReq = false
  running : s.halted = false
  release : s.debug = false

/-- How many packets wait at the two ports. -/
def State.waiting (s : State) : Nat := s.hIn.length + s.rIn.length

theorem State.waiting_eq_zero_iff (s : State) : s.waiting = 0 ↔ s.hIn = [] ∧ s.rIn = [] := by
  simp [State.waiting]

section
variable {s t u : State} {run : Run} {n : Nat}

/-- Where one port loses its oldest packet and the other none, one packet less waits. -/
theorem State.waiting_of_served {p : Port} {o : Offer} {rest : List Offer} (hserved : s.offers p = o :: rest)
    (hoffers : ∀ q, u.offers q = if q = p then rest else s.offers q) : u.waiting + 1 = s.waiting := by
  have hH : u.hIn = _ := hoffers .H
  have hR : u.rIn = _ := hoffers .R
  cases p with
  | H =>
    have hserved : s.hIn = o :: rest := hserved
    simp [State.waiting, State.offers, hH, hR, hserved, Nat.add_right_comm]
  | R =>
    have hserved : s.rIn = o :: rest := hserved
    simp [State.waiting, State.offers, hH, hR, hserved, Nat.add_assoc]

/-- A block that serves and at which packets wait answers one of them, and still serves. -/
theorem State.Serving.serves_one (h : s.Serving) (hwaits : s.waiting = n + 1) :
    ∃ u, step s = .next u ∧ u.Serving ∧ u.waiting = n := by
  obtain ⟨u, hstep⟩ : ∃ u, step s = .next u := by
    obtain ⟨-, hfault, hrefused⟩ := onlyAHaltedBlockIsStuck s
    cases hstep : step s with
    | next u => exact ⟨u, rfl⟩
    | fault f => cases h.running.symm.trans (hfault f hstep).1
    | refused r => exact absurd hstep (hrefused r)
  rcases step_books h.resetReq hstep with ⟨-, hnone⟩ | ⟨p, o, rest, r, hserved, -, hoffers, -, hreset, hdebug, -⟩
  · rw [s.waiting_eq_zero_iff.mpr hnone] at hwaits
    cases hwaits
  · have hless := State.waiting_of_served hserved hoffers
    exact ⟨u, hstep, ⟨hreset, releaseModeGoesOn s u hstep h.resetReq h.release, hdebug.trans h.release⟩, by omega⟩

/-- The whole run can be offered before the block takes a step. -/
theorem State.Serving.reaches_offered (h : s.Serving) (run : Run) : ∃ t, s.Reaches run t ∧ t.Serving := by
  induction run using List.reverseRecOn with
  | nil => exact ⟨s, .start, h⟩
  | append_singleton run x ih =>
    obtain ⟨t, hreaches, hserving⟩ := ih
    exact ⟨t.offer x.1 x.2, .offer x.1 x.2 hreaches, ⟨hserving.resetReq, hserving.running, hserving.release⟩⟩

/-- A block that serves can work off what waits, by induction on the number of packets. -/
theorem State.Serving.reaches_drained (h : t.Serving) (hreaches : s.Reaches run t) (hwaits : t.waiting = n) :
    ∃ u, s.Reaches run u ∧ u.Serving ∧ u.waiting = 0 := by
  induction n generalizing t with
  | zero => exact ⟨t, hreaches, h, hwaits⟩
  | succ n ih =>
    obtain ⟨u, hstep, hserving, hless⟩ := h.serves_one hwaits
    exact ih hserving (.step hreaches h.resetReq hstep) hless

end

/-- Settles O55: offer all of the run, then work it off; the responses are counted by the balance of runs. -/
theorem releaseModeRunsCanEndWell : Obligations.ReleaseModeRunsCanEndWell := by
  intro s run hreset hrunning hrelease
  have hserving : s.Serving := ⟨hreset, hrunning, hrelease⟩
  obtain ⟨t, hoffered, ht⟩ := hserving.reaches_offered run
  obtain ⟨u, hdrained, hu, hnone⟩ := ht.reaches_drained hoffered rfl
  obtain ⟨hH, hR⟩ := u.waiting_eq_zero_iff.mp hnone
  exact ⟨u, hdrained.endsWell_iff.mpr ⟨hH, hR, hu.running⟩⟩

end Sys2Proof.Machine
end
